-- ==== Sys2Proof/Word.lean ====
section
/-!
DEFINITION. The widths of the values the block handles: 4, 8, 16 and 32 bits (spec/00_scope.md R10, spec/10_state.md R27).
-/

namespace Sys2Proof

/-- Four bits: a type discriminant or a flags nibble (`TYPE_W`, `FLAGS_W`, R7). -/
abbrev Nibble := BitVec 4

/-- Eight bits, the unit of every byte space (R10, R31). -/
abbrev Byte := BitVec 8

/-- Sixteen bits: the timestamp and the 16-bit signed fields (R7). -/
abbrev Half := BitVec 16

/-- Thirty-two bits: a field slot and the 32-bit signed fields (`SLOT_W`, R8). -/
abbrev Word := BitVec 32

end Sys2Proof
end

