-- ==== Sys2Proof/Config.lean ====
section
/-!
DEFINITION. The implementation parameters of spec/00_scope.md R7 to R9 that are plain numbers.
The registry's payload sizes (R7, R54) and the byte order (R9, R33) are in Sys2Proof/Decode.lean, beside the layouts that use
them. The two parameters the source leaves open are fixed at the one value the spec specifies: `BYTE_ORDER` = big-endian and
`SIZE[6]` = 6 (R9, decisions D1 and D2; log entry 11). No value of this hardware is left free: every undefined port value of
the spec has no value at the model level (spec/93 U5 to U8), so there is no opaque constant here.
-/

namespace Sys2Proof

/-- `HDR_SIZE`: bytes of a header (R7). -/
def Config.hdrSize : Nat := 3

/-- `INFO_SIZE`: bytes of the INFO payload (R7). -/
def Config.infoSize : Nat := 300

/-- `MSG_CAP`: message bytes an INFO packet can carry, "leaving room for the terminator" (R7). -/
def Config.msgCap : Nat := 299

/-- `TERMINATOR` (R7). -/
def Config.terminator : Byte := 0x00#8

/-- `BUF_MAX`: the longest packet, and the number of wired bytes of `ibuf` and `obuf` (R8, R16, R20). -/
def Config.bufMax : Nat := 303

/-- The number of wired message bytes, `msg[0]` to `msg[298]` (R16). -/
def Config.msgWires : Nat := 299

/-- `N_SLOTS`: the number of field slots (R8). -/
def Config.nSlots : Nat := 9

end Sys2Proof
end

