-- ==== Sys2Proof/Syntax.lean ====
section
/-!
DEFINITION. The names of the spec: frame types, the typed records of a packet, the error kinds, the two encodings, and `Instr`,
one constructor per row of spec/opcode_table.json. No meaning here.
-/

namespace Sys2Proof

/-- The nine assigned type discriminants (spec/30_encoding.md R54). -/
inductive FrameType where
  | null
  | motion
  | environmental
  | airQuality
  | secondaryAccel
  | altitude
  | orientation
  | command
  | info
  deriving DecidableEq, Repr

/-- MOTION: nine 32-bit signed fields, in wire order (R57, spec/10_state.md R28). -/
structure Motion where
  accelX : Word
  accelY : Word
  accelZ : Word
  gyroX : Word
  gyroY : Word
  gyroZ : Word
  magX : Word
  magY : Word
  magZ : Word
  deriving DecidableEq, Repr

/-- ENVIRONMENTAL: four 32-bit signed fields, in wire order (R58). -/
structure Environmental where
  temperature : Word
  pressure : Word
  humidity : Word
  altitude : Word
  deriving DecidableEq, Repr

/-- AIR_QUALITY: two 16-bit signed fields, in wire order (R59). -/
structure AirQuality where
  co2 : Half
  tvoc : Half
  deriving DecidableEq, Repr

/-- SECONDARY_ACCEL: three 32-bit signed fields, in wire order (R60). -/
structure SecondaryAccel where
  accelX : Word
  accelY : Word
  accelZ : Word
  deriving DecidableEq, Repr

/-- ALTITUDE: one 32-bit signed field (R61). -/
structure Altitude where
  altitude : Word
  deriving DecidableEq, Repr

/-- ORIENTATION: three 16-bit signed fields, in wire order (R62, decision D2). -/
structure Orientation where
  pitch : Half
  roll : Half
  yaw : Half
  deriving DecidableEq, Repr

/-- The payload of a packet, one variant per frame type (R28: eight kinds, and the payload-less NULL of decision D12). -/
inductive Payload where
  | null
  | motion (p : Motion)
  | environmental (p : Environmental)
  | airQuality (p : AirQuality)
  | secondaryAccel (p : SecondaryAccel)
  | altitude (p : Altitude)
  | orientation (p : Orientation)
  | command
  | info (buf : List Byte)
  deriving DecidableEq, Repr

/-- A packet: "Header + payload-for-its-type" (R28). The type is that of the payload variant, so the invariant that the variant
is the one the header names holds by construction. -/
structure Packet where
  flags : Nibble
  time : Half
  payload : Payload
  deriving DecidableEq, Repr

/-- The error kinds (spec/60_exceptions.md R136; the warning MessageTruncated is not among them, R143). -/
inductive ErrorKind where
  | truncatedBuffer
  | sizeMismatch
  | unknownFrameType
  | typeMismatch
  | invalidType
  | illegalOp
  deriving DecidableEq, Repr

/-- The instructions: the twenty operations of format OP6 (R71), whose operands are on the request ports, and the nine packets
of format FRAME (R56 to R64), whose operands are the fields of the packet. -/
inductive Instr where
  | encodeHeader
  | decodeHeader
  | typeOf
  | packMotion
  | packEnvironmental
  | packAirQuality
  | packSecondaryAccel
  | packAltitude
  | packOrientation
  | packCommand
  | packInfo
  | unpackMotion
  | unpackEnvironmental
  | unpackAirQuality
  | unpackSecondaryAccel
  | unpackAltitude
  | unpackOrientation
  | unpackCommand
  | unpackInfo
  | decode
  | frameNull (flags : Nibble) (time : Half)
  | frameMotion (flags : Nibble) (time : Half) (p : Motion)
  | frameEnvironmental (flags : Nibble) (time : Half) (p : Environmental)
  | frameAirQuality (flags : Nibble) (time : Half) (p : AirQuality)
  | frameSecondaryAccel (flags : Nibble) (time : Half) (p : SecondaryAccel)
  | frameAltitude (flags : Nibble) (time : Half) (p : Altitude)
  | frameOrientation (flags : Nibble) (time : Half) (p : Orientation)
  | frameCommand (flags : Nibble) (time : Half)
  | frameInfo (flags : Nibble) (time : Half) (buf : List Byte)
  deriving DecidableEq, Repr

/-- The two encodings of the spec, by the place they stand in: a code on the 6-bit port `op` (R70), or the bytes of one delimited
packet in a buffer (R51). The same number means different things in the two places. -/
inductive Encoding where
  | op (code : BitVec 6)
  | packet (bytes : List Byte)
  deriving DecidableEq, Repr

end Sys2Proof
end

