-- ==== Sys2Proof/WellFormed.lean ====
section
/-!
DEFINITION. What the types of Syntax.lean do not already rule out: the INFO payload is exactly 300 bytes (spec/30_encoding.md
R64). Every other operand is a bit vector of its field's width, so every other term is well-formed.
-/

namespace Sys2Proof

/-- An INFO payload is a fixed 300-byte buffer; the other payloads are fixed by their types (R54, R64). -/
def Payload.wf : Payload → Bool
  | .null => true
  | .motion _ => true
  | .environmental _ => true
  | .airQuality _ => true
  | .secondaryAccel _ => true
  | .altitude _ => true
  | .orientation _ => true
  | .command => true
  | .info buf => buf.length == Config.infoSize

/-- An instruction is well-formed when the packet it stands for, if any, has its registry size. -/
def Instr.wf : Instr → Bool
  | .encodeHeader => true
  | .decodeHeader => true
  | .typeOf => true
  | .packMotion => true
  | .packEnvironmental => true
  | .packAirQuality => true
  | .packSecondaryAccel => true
  | .packAltitude => true
  | .packOrientation => true
  | .packCommand => true
  | .packInfo => true
  | .unpackMotion => true
  | .unpackEnvironmental => true
  | .unpackAirQuality => true
  | .unpackSecondaryAccel => true
  | .unpackAltitude => true
  | .unpackOrientation => true
  | .unpackCommand => true
  | .unpackInfo => true
  | .decode => true
  | .frameNull _ _ => Payload.wf .null
  | .frameMotion _ _ p => Payload.wf (.motion p)
  | .frameEnvironmental _ _ p => Payload.wf (.environmental p)
  | .frameAirQuality _ _ p => Payload.wf (.airQuality p)
  | .frameSecondaryAccel _ _ p => Payload.wf (.secondaryAccel p)
  | .frameAltitude _ _ p => Payload.wf (.altitude p)
  | .frameOrientation _ _ p => Payload.wf (.orientation p)
  | .frameCommand _ _ => Payload.wf .command
  | .frameInfo _ _ buf => Payload.wf (.info buf)

end Sys2Proof
end

