-- ==== Sys2Proof/Decode.lean ====
section
/-!
DEFINITION. The encodings of spec/30_encoding.md: the Frame Type Registry (R54), byte order (spec/20_memory.md R33), the operation
codes (R71), the packet layouts (R56 to R64), and with them the decoder and the encoder of both formats.
-/

namespace Sys2Proof

-- The Frame Type Registry (R54)

/-- The discriminant of a frame type (R54). -/
def FrameType.nibble : FrameType → Nibble
  | .null => 0
  | .motion => 1
  | .environmental => 2
  | .airQuality => 3
  | .secondaryAccel => 4
  | .altitude => 5
  | .orientation => 6
  | .command => 7
  | .info => 8

/-- The frame type a discriminant names; 9 to 15 are unassigned (R54, R66). -/
def FrameType.ofNibble (n : Nibble) : Option FrameType :=
  match n with
  | 0#4 => some .null
  | 1#4 => some .motion
  | 2#4 => some .environmental
  | 3#4 => some .airQuality
  | 4#4 => some .secondaryAccel
  | 5#4 => some .altitude
  | 6#4 => some .orientation
  | 7#4 => some .command
  | 8#4 => some .info
  | _ => none

/-- `SIZE[t]`, the payload size in bytes (R54; ORIENTATION by decision D2). -/
def FrameType.size : FrameType → Nat
  | .null => 0
  | .motion => 36
  | .environmental => 16
  | .airQuality => 4
  | .secondaryAccel => 12
  | .altitude => 4
  | .orientation => 6
  | .command => 0
  | .info => Config.infoSize

/-- `LEN[t] = 3 + SIZE[t]` (R8, R51). -/
def FrameType.len (t : FrameType) : Nat := Config.hdrSize + t.size

/-- The type a payload is the payload of (R28). -/
def Payload.type : Payload → FrameType
  | .null => .null
  | .motion _ => .motion
  | .environmental _ => .environmental
  | .airQuality _ => .airQuality
  | .secondaryAccel _ => .secondaryAccel
  | .altitude _ => .altitude
  | .orientation _ => .orientation
  | .command => .command
  | .info _ => .info

-- Bytes and fields (R10, R33, R36 to R38)

/-- `b[7:4]` (R10). -/
def hiNibble (b : Byte) : Nibble := b.extractLsb' 4 4

/-- `b[3:0]` (R10). -/
def loNibble (b : Byte) : Nibble := b.extractLsb' 0 4

/-- The two bytes of a 16-bit value, most significant first (R33, R37). -/
def put16 (v : Half) : List Byte := [v.extractLsb' 8 8, v.extractLsb' 0 8]

/-- The four bytes of a 32-bit value, most significant first (R33, R37). -/
def put32 (v : Word) : List Byte :=
  [v.extractLsb' 24 8, v.extractLsb' 16 8, v.extractLsb' 8 8, v.extractLsb' 0 8]

/-- The 16-bit value at index `a` of the bytes `rd`: `{rd[a], rd[a+1]}` (R33, R36, R65). -/
def get16 (rd : Nat → Byte) (a : Nat) : Half := rd a ++ rd (a + 1)

/-- The 32-bit value at index `a`: `{rd[a], rd[a+1], rd[a+2], rd[a+3]}` (R33, R36, R65). -/
def get32 (rd : Nat → Byte) (a : Nat) : Word := (rd a ++ rd (a + 1)) ++ (rd (a + 2) ++ rd (a + 3))

/-- The 3-byte header: `{type, flags}`, then the timestamp (R52, R53, R81). -/
def headerBytes (type flags : Nibble) (time : Half) : List Byte := (type ++ flags) :: put16 time

-- Packets (R51, R56 to R64)

/-- The payload bytes, fields in registry order, back to back (R35, R57 to R64). -/
def Payload.bytes : Payload → List Byte
  | .null => []
  | .motion p =>
    put32 p.accelX ++ put32 p.accelY ++ put32 p.accelZ ++ put32 p.gyroX ++ put32 p.gyroY ++ put32 p.gyroZ
      ++ put32 p.magX ++ put32 p.magY ++ put32 p.magZ
  | .environmental p => put32 p.temperature ++ put32 p.pressure ++ put32 p.humidity ++ put32 p.altitude
  | .airQuality p => put16 p.co2 ++ put16 p.tvoc
  | .secondaryAccel p => put32 p.accelX ++ put32 p.accelY ++ put32 p.accelZ
  | .altitude p => put32 p.altitude
  | .orientation p => put16 p.pitch ++ put16 p.roll ++ put16 p.yaw
  | .command => []
  | .info buf => buf

/-- The bytes of a packet (R51). -/
def Packet.bytes (p : Packet) : List Byte :=
  headerBytes p.payload.type.nibble p.flags p.time ++ p.payload.bytes

/-- The payload of type `t` read from the byte indices of its layout table (R56 to R64). -/
def Payload.read (t : FrameType) (rd : Nat → Byte) : Payload :=
  match t with
  | .null => .null
  | .motion =>
    .motion
      { accelX := get32 rd 3, accelY := get32 rd 7, accelZ := get32 rd 11
        gyroX := get32 rd 15, gyroY := get32 rd 19, gyroZ := get32 rd 23
        magX := get32 rd 27, magY := get32 rd 31, magZ := get32 rd 35 }
  | .environmental =>
    .environmental
      { temperature := get32 rd 3, pressure := get32 rd 7, humidity := get32 rd 11, altitude := get32 rd 15 }
  | .airQuality => .airQuality { co2 := get16 rd 3, tvoc := get16 rd 5 }
  | .secondaryAccel => .secondaryAccel { accelX := get32 rd 3, accelY := get32 rd 7, accelZ := get32 rd 11 }
  | .altitude => .altitude { altitude := get32 rd 3 }
  | .orientation => .orientation { pitch := get16 rd 3, roll := get16 rd 5, yaw := get16 rd 7 }
  | .command => .command
  | .info => .info ((List.range Config.infoSize).map fun j => rd (3 + j))

/-- The packet of type `t` read from a buffer: flags and time from the header, then the payload (R65, R105). -/
def Packet.read (t : FrameType) (rd : Nat → Byte) : Packet :=
  { flags := loNibble (rd 0), time := get16 rd 1, payload := Payload.read t rd }

/-- The packet decoder: `len` is the delimited length, `rd` the bytes below it. Total; rejects by name, in the dispatcher's order
(spec/43_dispatcher.md R121, R122, priority R145): no byte 0; an unassigned nibble; shorter than the packet; longer than it. -/
def decodePacket (len : Nat) (rd : Nat → Byte) : Except ErrorKind Packet :=
  if len < 1 then .error .truncatedBuffer
  else
    match FrameType.ofNibble (hiNibble (rd 0)) with
    | none => .error .unknownFrameType
    | some t =>
      if len < t.len then .error .truncatedBuffer
      else if t.len < len then .error .sizeMismatch
      else .ok (Packet.read t rd)

/-- The FRAME instruction a packet is. -/
def Packet.toInstr (p : Packet) : Instr :=
  match p.payload with
  | .null => .frameNull p.flags p.time
  | .motion q => .frameMotion p.flags p.time q
  | .environmental q => .frameEnvironmental p.flags p.time q
  | .airQuality q => .frameAirQuality p.flags p.time q
  | .secondaryAccel q => .frameSecondaryAccel p.flags p.time q
  | .altitude q => .frameAltitude p.flags p.time q
  | .orientation q => .frameOrientation p.flags p.time q
  | .command => .frameCommand p.flags p.time
  | .info buf => .frameInfo p.flags p.time buf

-- Operation codes (R70, R71)

/-- The operation a code on the port `op` selects; the other 44 codes are reserved (R71, R72). -/
def decodeOp (code : BitVec 6) : Except ErrorKind Instr :=
  match code with
  | 0x00#6 => .ok .encodeHeader
  | 0x01#6 => .ok .decodeHeader
  | 0x02#6 => .ok .typeOf
  | 0x11#6 => .ok .packMotion
  | 0x12#6 => .ok .packEnvironmental
  | 0x13#6 => .ok .packAirQuality
  | 0x14#6 => .ok .packSecondaryAccel
  | 0x15#6 => .ok .packAltitude
  | 0x16#6 => .ok .packOrientation
  | 0x17#6 => .ok .packCommand
  | 0x18#6 => .ok .packInfo
  | 0x21#6 => .ok .unpackMotion
  | 0x22#6 => .ok .unpackEnvironmental
  | 0x23#6 => .ok .unpackAirQuality
  | 0x24#6 => .ok .unpackSecondaryAccel
  | 0x25#6 => .ok .unpackAltitude
  | 0x26#6 => .ok .unpackOrientation
  | 0x27#6 => .ok .unpackCommand
  | 0x28#6 => .ok .unpackInfo
  | 0x30#6 => .ok .decode
  | _ => .error .illegalOp

-- The decoder and the encoder of both formats

/-- Decode an encoding by the place it stands in. -/
def decode : Encoding → Except ErrorKind Instr
  | .op code => decodeOp code
  | .packet bytes => (decodePacket bytes.length fun i => bytes.getD i 0).map Packet.toInstr

/-- Encode an instruction: the code `{cls, sub}` of an operation (R70), or the bytes of a packet (R51). -/
def encode : Instr → Encoding
  | .encodeHeader => .op (0#2 ++ 0#4)
  | .decodeHeader => .op (0#2 ++ 1#4)
  | .typeOf => .op (0#2 ++ 2#4)
  | .packMotion => .op (1#2 ++ FrameType.motion.nibble)
  | .packEnvironmental => .op (1#2 ++ FrameType.environmental.nibble)
  | .packAirQuality => .op (1#2 ++ FrameType.airQuality.nibble)
  | .packSecondaryAccel => .op (1#2 ++ FrameType.secondaryAccel.nibble)
  | .packAltitude => .op (1#2 ++ FrameType.altitude.nibble)
  | .packOrientation => .op (1#2 ++ FrameType.orientation.nibble)
  | .packCommand => .op (1#2 ++ FrameType.command.nibble)
  | .packInfo => .op (1#2 ++ FrameType.info.nibble)
  | .unpackMotion => .op (2#2 ++ FrameType.motion.nibble)
  | .unpackEnvironmental => .op (2#2 ++ FrameType.environmental.nibble)
  | .unpackAirQuality => .op (2#2 ++ FrameType.airQuality.nibble)
  | .unpackSecondaryAccel => .op (2#2 ++ FrameType.secondaryAccel.nibble)
  | .unpackAltitude => .op (2#2 ++ FrameType.altitude.nibble)
  | .unpackOrientation => .op (2#2 ++ FrameType.orientation.nibble)
  | .unpackCommand => .op (2#2 ++ FrameType.command.nibble)
  | .unpackInfo => .op (2#2 ++ FrameType.info.nibble)
  | .decode => .op (3#2 ++ 0#4)
  | .frameNull flags time => .packet (Packet.bytes ⟨flags, time, .null⟩)
  | .frameMotion flags time p => .packet (Packet.bytes ⟨flags, time, .motion p⟩)
  | .frameEnvironmental flags time p => .packet (Packet.bytes ⟨flags, time, .environmental p⟩)
  | .frameAirQuality flags time p => .packet (Packet.bytes ⟨flags, time, .airQuality p⟩)
  | .frameSecondaryAccel flags time p => .packet (Packet.bytes ⟨flags, time, .secondaryAccel p⟩)
  | .frameAltitude flags time p => .packet (Packet.bytes ⟨flags, time, .altitude p⟩)
  | .frameOrientation flags time p => .packet (Packet.bytes ⟨flags, time, .orientation p⟩)
  | .frameCommand flags time => .packet (Packet.bytes ⟨flags, time, .command⟩)
  | .frameInfo flags time buf => .packet (Packet.bytes ⟨flags, time, .info buf⟩)

-- Words of the opcode table, without the place they stand in

/-- The low `n` bytes of a number, byte 0 (its bits 7..0) first. -/
def numberBytes (n w : Nat) : List Byte := (List.range n).map fun k => BitVec.ofNat 8 (w >>> (8 * k))

/-- The length of the packet whose first bytes are `bytes` and whose later bytes are all 0: its type's `LEN`; a packet of an unassigned
type, whose length nothing defines (R55), ends where the bytes end. -/
def paddedLength (bytes : List Byte) : Nat :=
  match FrameType.ofNibble (hiNibble (bytes.getD 0 0)) with
  | none => bytes.length
  | some t => max bytes.length t.len

/-- Where a word of the opcode table stands. The table's two formats are read in two places and their numbers overlap (0x00 is
`encode_header` on `op` and FRAME_NULL in a buffer, 0x30 is `decode` and FRAME_AIR_QUALITY), and a bare word does not say
which. DESIGN CHOICE (log entry 10): a word given at most six bits is a code on `op`; a word given eight bits that is the code of
an operation is that code; any other word is the first byte, or bytes, of a packet. -/
def placeTableWord (nbits w : Nat) : Encoding :=
  let code := BitVec.ofNat 6 w
  let n := max 1 ((nbits + 7) / 8)
  if w < 64 ∧ (nbits ≤ 6 ∨ (nbits ≤ 8 ∧ (decodeOp code).isOk)) then .op code
  else .packet (numberBytes n w)

/-- The instruction of a word of the opcode table, its later bytes 0. -/
def decodeTableWord (nbits w : Nat) : Option Instr :=
  match placeTableWord nbits w with
  | .op code => (decodeOp code).toOption
  | .packet bytes => ((decodePacket (paddedLength bytes) fun i => bytes.getD i 0).map Packet.toInstr).toOption

end Sys2Proof
end

