-- ==== Sys2Proof/Machine/State.lean ====
section
/-!
DEFINITION. The state of the model: the input ports (spec/10_state.md R16, spec/70_reset_and_hazards.md R155), the response (R20),
and the requests made and responses given (R13, R163). The block itself keeps nothing between operations (R13). Plain data.
-/

namespace Sys2Proof.Machine

/-- One byte space of the input ports (spec/20_memory.md R31): the indices whose byte is not 0x00, rising, each with its byte. An
index that is not listed carries 0x00; so every assignment of bytes to the wires has exactly one such list. -/
abbrev Memory := List Host.Cell

/-- The operand ports of a request (R16). A port an operation does not read is ignored by it (R25). -/
structure Request where
  /-- `op`, the operation select (R70) -/
  op : BitVec 6
  /-- `type_in` -/
  typeIn : BitVec 8
  /-- `flags_in`; only bits [3:0] are used -/
  flagsIn : BitVec 8
  /-- `time_in`; only bits [15:0] are used -/
  timeIn : BitVec 32
  /-- `x[0]` to `x[8]`, request side (R17) -/
  x : Vector Word 9
  /-- `msg_len` -/
  msgLen : BitVec 16
  /-- `msg[0]` to `msg[298]` (R19) -/
  msg : Memory
  /-- `ibuf_len` -/
  ibufLen : BitVec 16
  /-- `ibuf[0]` to `ibuf[302]` (R19) -/
  ibuf : Memory
  deriving DecidableEq, Repr

/-- What the callers drive on the input ports for one step. -/
structure Drive where
  /-- `rst` (R155) -/
  rst : Bool
  /-- `req_valid` (R16) -/
  reqValid : Bool
  /-- the model's own field: the caller holds `op` and the operand ports stable until the response, its duty by R160 (a) -/
  held : Bool
  /-- the operand ports -/
  req : Request
  deriving DecidableEq, Repr

/-- The result ports of a response that is not an error (R20). A port the operation does not drive has no value (R25, decision
D26): it is `none`, or past the end of its list. -/
structure Results where
  hdrType : Option Nibble := none
  hdrFlags : Option Nibble := none
  hdrTime : Option Half := none
  /-- the driven response slots, `x[0]` first (R21) -/
  x : List Word := []
  infoLen : Option (BitVec 9) := none
  /-- the 300 bytes of `info_buf` (R23) -/
  infoBuf : Option (List Byte) := none
  obufLen : Option (BitVec 9) := none
  /-- `obuf[0 .. obuf_len-1]`, exactly: no byte at or above `obuf_len` has a value (R23) -/
  obuf : Option (List Byte) := none
  deriving DecidableEq, Repr

/-- A response (R20). An error response is the error alone (R137): it has no results to read. A completed operation may carry the
one warning, MessageTruncated, beside valid results (R143). -/
inductive Response where
  | error (e : ErrorKind)
  | done (truncated : Bool) (r : Results)
  deriving DecidableEq, Repr

/-- The machine's state. What is not in it (R30): the registry, the byte order and the sizes are constants (Decode.lean, Config.lean);
the sequence of requests, the callers' program, is the parameter of a run (Run.lean); there is no clock. -/
structure State where
  /-- the input ports as the callers drive them now -/
  inp : Drive
  /-- the response; `none` is `rsp_valid = 0` (R20, R29) -/
  rsp : Option Response
  /-- the requests made and the responses given so far, oldest first (R13, R163) -/
  trace : List (Request × Response)
  deriving DecidableEq, Repr

/-- The reasons the machine stops with a fault: there is none. Every error of the spec is a response the machine answers before
it goes on (R135, R137), so nobody raises a fault; a type with no constructor says so (safe). -/
inductive Fault where
  deriving DecidableEq, Repr

/-- The reasons a step has no meaning. -/
inductive Refusal where
  /-- raised by `exec` for an instruction that has no meaning yet; no arm does (safe: the model stops) -/
  | notModelled (mnemonic : String)
  /-- raised by `step` when the caller does not hold the request stable until the response (R160 a): every response port is then
  unspecified, and spec/93 U9 names the refusal as the treatment (safe: the model stops) -/
  | requestNotHeld
  deriving DecidableEq, Repr

/-- Every operand port driven with zeros. -/
def Request.zero : Request :=
  { op := 0, typeIn := 0, flagsIn := 0, timeIn := 0, x := Vector.replicate 9 0
    msgLen := 0, msg := [], ibufLen := 0, ibuf := [] }

/-- The machine right after reset: `rsp_valid = 0` (R29), `rst` released, no request presented, none made. The values of
the input ports are the callers' and the spec gives none: DESIGN CHOICE, zeros (log entry 1). -/
def State.reset : State :=
  { inp := { rst := false, reqValid := false, held := true, req := Request.zero }
    rsp := none, trace := [] }

end Sys2Proof.Machine
end

