-- ==== Sys2Proof/Machine/Ops.lean ====
section
/-!
DEFINITION. The named operations over the state: reading and driving a byte space, giving a response, raising an error
(spec/60_exceptions.md R137), fetching the operation (spec/10_state.md R15), and what the input ports do after a step.
-/

namespace Sys2Proof.Machine

/-- What a step answers. -/
abbrev Out := Host.Outcome State Fault Refusal

-- Byte spaces (spec/20_memory.md R31)

/-- The byte an index carries when it is not listed (DESIGN CHOICE, log entry 2). -/
def Memory.unlisted : Byte := 0x00#8

/-- The byte at index `a`. -/
def Memory.read (m : Memory) (a : Nat) : Byte :=
  match m with
  | [] => Memory.unlisted
  | (b, v) :: rest => if a = b then v else Memory.read rest a

/-- Drive index `a` with `v`: the one place that keeps the list in its canonical form. -/
def Memory.write (m : Memory) (a : Nat) (v : Byte) : Memory :=
  match m with
  | [] => if v = Memory.unlisted then [] else [(a, v)]
  | (b, w) :: rest =>
    if a < b then (if v = Memory.unlisted then (b, w) :: rest else (a, v) :: (b, w) :: rest)
    else if a = b then (if v = Memory.unlisted then rest else (a, v) :: rest)
    else (b, w) :: Memory.write rest a v

/-- Drive the indices from `a` up with `bytes`; the others stay as they are. -/
def Memory.load (m : Memory) (a : Nat) (bytes : List Byte) : Memory :=
  match bytes with
  | [] => m
  | b :: rest => Memory.load (Memory.write m a b) (a + 1) rest

/-- The listed indices rise strictly from `lo` up and stay below `n`, and none lists the unlisted value. -/
def Memory.risesFrom (lo n : Nat) (m : Memory) : Bool :=
  match m with
  | [] => true
  | (a, v) :: rest => decide (lo ≤ a) && decide (a < n) && decide (v ≠ Memory.unlisted) && Memory.risesFrom (a + 1) n rest

/-- The canonical form of a byte space of `n` wires. -/
def Memory.wf (n : Nat) (m : Memory) : Bool := Memory.risesFrom 0 n m

/-- Only wires that exist are driven: 299 of `msg`, 303 of `ibuf` (R16), both in canonical form. -/
def Request.wf (q : Request) : Bool := Memory.wf Config.msgWires q.msg && Memory.wf Config.bufMax q.ibuf

/-- The caller copies a buffer's bytes to the 303 wires of `ibuf`, as far as they reach, and says its length (R160 c, d; R42 b). -/
def Request.withBuffer (q : Request) (bytes : List Byte) : Request :=
  { q with ibufLen := BitVec.ofNat 16 bytes.length, ibuf := Memory.load q.ibuf 0 (bytes.take Config.bufMax) }

-- Responses (R20, R137, R158)

/-- Answer the presented request: `rsp_valid = 1` with the response, and the pair joins the observation. Nothing is kept of an
earlier response (R159). The pair is that of R13 for an operation, whose request is the one on the ports. For a packet of format FRAME,
which is no request of the spec, DESIGN CHOICE (log entry 9): its response is paired with the request that stands on the ports,
made or not. -/
def State.respond (r : Response) (s : State) : State :=
  { s with rsp := some r, trace := s.trace ++ [(s.inp.req, r)] }

/-- `raise <Error>` (R137): the response is the error alone; the machine goes on. There is no handler and nothing to return from
(R148), so no return operation stands beside it. -/
def raise (e : ErrorKind) (s : State) : Out := .next (s.respond (.error e))

/-- The operation ends with `status = OK` and its results (`return`, spec/00_scope.md R11). -/
def complete (r : Results) (s : State) : Out := .next (s.respond (.done false r))

/-- `warn MessageTruncated` when `truncated`, then the operation ends with its results (R143). -/
def completeWarning (truncated : Bool) (r : Results) (s : State) : Out := .next (s.respond (.done truncated r))

/-- No response is given: `rsp_valid = 0` (R29, R155). -/
def State.noResponse (s : State) : State := { s with rsp := none }

-- The input ports

/-- The operation on the port `op` (R15, R45: it is read from no buffer). -/
def fetch (s : State) : Except ErrorKind Instr := decodeOp s.inp.req.op

/-- No request, `rst` released, the operand ports as they are. -/
def Drive.quiet (d : Drive) : Drive := { d with rst := false, reqValid := false, held := true }

/-- After a step the operand ports are as they were, no request is presented, and `rst` is released: a request is answered once
(R158), and what the callers drive next is a parameter of the next step (R30). DESIGN CHOICE (log entry 4). The response just given
stays on its ports until the next step, or until `rst` rises (log entry 18). -/
def State.advance (s : State) : State := { s with inp := s.inp.quiet }

/-- The callers drive `d`. The spec has no clock (R161) and does not say when a response is withdrawn relative to `rst` rising;
DESIGN CHOICE (log entry 18): at once, so that `rsp_valid = 0` whenever `rst` is asserted (R155). -/
def State.drive (d : Drive) (s : State) : State := { s with inp := d, rsp := if d.rst then none else s.rsp }

/-- Apply `f` to the state of a step that answers one. -/
def Out.map (f : State → State) (o : Out) : Out :=
  match o with
  | .next s => .next (f s)
  | .fault r => .fault r
  | .refused r => .refused r

/-- Present the request `q`, held stable, with `rst` released. -/
def State.present (q : Request) (s : State) : State :=
  s.drive { rst := false, reqValid := true, held := true, req := q }

end Sys2Proof.Machine
end

