-- ==== Sys2Proof/Machine/Operands.lean ====
section
/-!
DEFINITION. The operand forms of a request (spec/10_state.md R17 to R19) and the result forms of a response (R21 to R23).
-/

namespace Sys2Proof.Machine

-- Request side

/-- `flags_in[3:0]`; the upper bits are dropped silently (R18). -/
def Request.flags (q : Request) : Nibble := q.flagsIn.extractLsb' 0 4

/-- `time_in[15:0]`, the seconds mod 65536 (R18). -/
def Request.time (q : Request) : Half := q.timeIn.extractLsb' 0 16

/-- A 16-bit field operand: bits [15:0] of its slot; bits [31:16] are ignored (R17). -/
def lowHalf (v : Word) : Half := v.extractLsb' 0 16

/-- The fields of MOTION on the request slots (R17, R57). -/
def Request.motion (q : Request) : Motion :=
  { accelX := q.x[0], accelY := q.x[1], accelZ := q.x[2]
    gyroX := q.x[3], gyroY := q.x[4], gyroZ := q.x[5]
    magX := q.x[6], magY := q.x[7], magZ := q.x[8] }

/-- The fields of ENVIRONMENTAL (R17, R58). -/
def Request.environmental (q : Request) : Environmental :=
  { temperature := q.x[0], pressure := q.x[1], humidity := q.x[2], altitude := q.x[3] }

/-- The fields of AIR_QUALITY (R17, R59). -/
def Request.airQuality (q : Request) : AirQuality := { co2 := lowHalf q.x[0], tvoc := lowHalf q.x[1] }

/-- The fields of SECONDARY_ACCEL (R17, R60). -/
def Request.secondaryAccel (q : Request) : SecondaryAccel :=
  { accelX := q.x[0], accelY := q.x[1], accelZ := q.x[2] }

/-- The field of ALTITUDE (R17, R61). -/
def Request.altitude (q : Request) : Altitude := { altitude := q.x[0] }

/-- The fields of ORIENTATION (R17, R62). -/
def Request.orientation (q : Request) : Orientation :=
  { pitch := lowHalf q.x[0], roll := lowHalf q.x[1], yaw := lowHalf q.x[2] }

/-- `min(msg_len, 299)`, the message bytes an INFO packet takes (spec/41_pack.md R98). -/
def Request.msgTaken (q : Request) : Nat := min q.msgLen.toNat Config.msgCap

/-- `msg_len > 299`: the message is cut (R98, R143). -/
def Request.msgCut (q : Request) : Bool := decide (Config.msgCap < q.msgLen.toNat)

/-- The INFO payload: the message bytes taken, then the terminator to 300 bytes (R98). The message is not scanned. -/
def Request.infoPayload (q : Request) : List Byte :=
  (List.range Config.infoSize).map fun j => if j < q.msgTaken then q.msg.read j else Config.terminator

-- Response side

/-- A 16-bit field in a response slot: sign-extended (R21). -/
def sext32 (v : Half) : Word := v.signExtend 32

/-- The response slots a payload drives, in registry order (R21). -/
def Payload.slots : Payload → List Word
  | .null => []
  | .motion p => [p.accelX, p.accelY, p.accelZ, p.gyroX, p.gyroY, p.gyroZ, p.magX, p.magY, p.magZ]
  | .environmental p => [p.temperature, p.pressure, p.humidity, p.altitude]
  | .airQuality p => [sext32 p.co2, sext32 p.tvoc]
  | .secondaryAccel p => [p.accelX, p.accelY, p.accelZ]
  | .altitude p => [p.altitude]
  | .orientation p => [sext32 p.pitch, sext32 p.roll, sext32 p.yaw]
  | .command => []
  | .info _ => []

/-- The 300 bytes a payload drives on `info_buf`, if any (R23). -/
def Payload.infoBuf? : Payload → Option (List Byte)
  | .null => none
  | .motion _ => none
  | .environmental _ => none
  | .airQuality _ => none
  | .secondaryAccel _ => none
  | .altitude _ => none
  | .orientation _ => none
  | .command => none
  | .info buf => some buf

/-- `info_len`: the least index of a terminator, or the number of bytes when there is none (R23, decision D17). -/
def firstTerminator : List Byte → Nat
  | [] => 0
  | b :: rest => if b = Config.terminator then 0 else firstTerminator rest + 1

/-- The result ports of a decoded packet: the header, the slots, and for INFO the buffer (R21 to R23). -/
def Results.ofPacket (p : Packet) : Results :=
  { hdrType := some p.payload.type.nibble
    hdrFlags := some p.flags
    hdrTime := some p.time
    x := Payload.slots p.payload
    infoLen := (Payload.infoBuf? p.payload).map fun buf => BitVec.ofNat 9 (firstTerminator buf)
    infoBuf := Payload.infoBuf? p.payload }

/-- The result ports of an encode-side operation: `obuf_len` and that many bytes (R23). -/
def Results.ofBytes (bytes : List Byte) : Results :=
  { obufLen := some (BitVec.ofNat 9 bytes.length), obuf := some bytes }

/-- Answer with a decoded packet; what its response is paired with in the observation is said at `State.respond`. -/
def deliver (p : Packet) (s : State) : Out := complete (Results.ofPacket p) s

end Sys2Proof.Machine
end

