-- ==== Sys2Proof/Machine/Dispatcher.lean ====
section
/-!
DEFINITION. The dispatcher DISP (spec/43_dispatcher.md): `decode`, and the nine packets of format FRAME, the paths its selection
leads to (R120).
-/

namespace Sys2Proof.Machine

/-- `decode` (R121, R122): the packet decoder over the input buffer. Defined directly, as R127 allows; that it equals the composition
of type_of and the unpack operation is a statement of its own. -/
def execDecode (s : State) : Out :=
  match decodePacket s.inp.req.ibufLen.toNat s.inp.req.ibuf.read with
  | .error e => raise e s
  | .ok p => deliver p s

/-- A received packet of type NULL (R56, R122): the header alone. What the nine packets mean as instructions, and
what joins the observation with them, is log entry 9. -/
def execFrameNull (flags : Nibble) (time : Half) (s : State) : Out := deliver ⟨flags, time, .null⟩ s

/-- A received MOTION packet (R57). -/
def execFrameMotion (flags : Nibble) (time : Half) (p : Motion) (s : State) : Out :=
  deliver ⟨flags, time, .motion p⟩ s

/-- A received ENVIRONMENTAL packet (R58). -/
def execFrameEnvironmental (flags : Nibble) (time : Half) (p : Environmental) (s : State) : Out :=
  deliver ⟨flags, time, .environmental p⟩ s

/-- A received AIR_QUALITY packet (R59). -/
def execFrameAirQuality (flags : Nibble) (time : Half) (p : AirQuality) (s : State) : Out :=
  deliver ⟨flags, time, .airQuality p⟩ s

/-- A received SECONDARY_ACCEL packet (R60). -/
def execFrameSecondaryAccel (flags : Nibble) (time : Half) (p : SecondaryAccel) (s : State) : Out :=
  deliver ⟨flags, time, .secondaryAccel p⟩ s

/-- A received ALTITUDE packet (R61). -/
def execFrameAltitude (flags : Nibble) (time : Half) (p : Altitude) (s : State) : Out :=
  deliver ⟨flags, time, .altitude p⟩ s

/-- A received ORIENTATION packet (R62). -/
def execFrameOrientation (flags : Nibble) (time : Half) (p : Orientation) (s : State) : Out :=
  deliver ⟨flags, time, .orientation p⟩ s

/-- A received COMMAND packet (R63): the header alone. -/
def execFrameCommand (flags : Nibble) (time : Half) (s : State) : Out := deliver ⟨flags, time, .command⟩ s

/-- A received INFO packet (R64). A term whose buffer is not 300 bytes is no packet (it is not well-formed, and nothing decodes to it);
the meaning answers what the dispatcher answers for its bytes: too short is TruncatedBuffer, too long SizeMismatch (R121). -/
def execFrameInfo (flags : Nibble) (time : Half) (buf : List Byte) (s : State) : Out :=
  if buf.length < Config.infoSize then raise .truncatedBuffer s
  else if Config.infoSize < buf.length then raise .sizeMismatch s
  else deliver ⟨flags, time, .info buf⟩ s

end Sys2Proof.Machine
end

