-- ==== Sys2Proof/Machine/Header.lean ====
section
/-!
DEFINITION. The header codec HDR (spec/40_header_codec.md): encode_header, decode_header, type_of. None consults the registry (R80).
-/

namespace Sys2Proof.Machine

/-- `encode_header` (R81): a type that does not fit in 4 bits is InvalidType; 0 and 9 to 15 are accepted. -/
def execEncodeHeader (s : State) : Out :=
  if 15 < s.inp.req.typeIn.toNat then raise .invalidType s
  else
    complete (Results.ofBytes (headerBytes (s.inp.req.typeIn.extractLsb' 0 4) s.inp.req.flags s.inp.req.time)) s

/-- `decode_header` (R82): any buffer of 3 bytes or more; the type is not checked (R85). -/
def execDecodeHeader (s : State) : Out :=
  if s.inp.req.ibufLen.toNat < 3 then raise .truncatedBuffer s
  else
    complete
      { hdrType := some (hiNibble (s.inp.req.ibuf.read 0))
        hdrFlags := some (loNibble (s.inp.req.ibuf.read 0))
        hdrTime := some (get16 s.inp.req.ibuf.read 1) } s

/-- `type_of` (R83): the high nibble of byte 0, from any buffer that has one. -/
def execTypeOf (s : State) : Out :=
  if s.inp.req.ibufLen.toNat < 1 then raise .truncatedBuffer s
  else complete { hdrType := some (hiNibble (s.inp.req.ibuf.read 0)) } s

end Sys2Proof.Machine
end

