-- ==== Sys2Proof/Machine/Pack.lean ====
section
/-!
DEFINITION. The encode side of the payload codec PAY (spec/41_pack.md): the eight pack operations.
-/

namespace Sys2Proof.Machine

/-- The packet of a payload, with the header operands of the request (R90). -/
def Request.packet (q : Request) (payload : Payload) : Packet :=
  { flags := q.flags, time := q.time, payload := payload }

/-- The common procedure of every pack operation (R90): the header with the kind's own type, then the fields. -/
def pack (truncated : Bool) (payload : Payload) (s : State) : Out :=
  completeWarning truncated (Results.ofBytes (s.inp.req.packet payload).bytes) s

/-- `pack_motion` (R91). -/
def execPackMotion (s : State) : Out := pack false (.motion s.inp.req.motion) s

/-- `pack_environmental` (R92). -/
def execPackEnvironmental (s : State) : Out := pack false (.environmental s.inp.req.environmental) s

/-- `pack_air_quality` (R93). -/
def execPackAirQuality (s : State) : Out := pack false (.airQuality s.inp.req.airQuality) s

/-- `pack_secondary_accel` (R94). -/
def execPackSecondaryAccel (s : State) : Out := pack false (.secondaryAccel s.inp.req.secondaryAccel) s

/-- `pack_altitude` (R95). -/
def execPackAltitude (s : State) : Out := pack false (.altitude s.inp.req.altitude) s

/-- `pack_orientation` (R96). -/
def execPackOrientation (s : State) : Out := pack false (.orientation s.inp.req.orientation) s

/-- `pack_command` (R97): the header alone. -/
def execPackCommand (s : State) : Out := pack false .command s

/-- `pack_info` (R98): a message longer than 299 bytes is cut and the warning given; the results are valid either way. -/
def execPackInfo (s : State) : Out := pack s.inp.req.msgCut (.info s.inp.req.infoPayload) s

end Sys2Proof.Machine
end

