-- ==== Sys2Proof/Machine/Unpack.lean ====
section
/-!
DEFINITION. The decode side of the payload codec PAY (spec/42_unpack.md): the eight unpack operations.
-/

namespace Sys2Proof.Machine

/-- The common procedure of every unpack operation (R105): the exact length, then the type, then the header and the fields. -/
def unpack (t : FrameType) (s : State) : Out :=
  if s.inp.req.ibufLen.toNat ≠ t.len then raise .sizeMismatch s
  else if hiNibble (s.inp.req.ibuf.read 0) ≠ t.nibble then raise .typeMismatch s
  else deliver (Packet.read t s.inp.req.ibuf.read) s

/-- `unpack_motion` (R106). -/
def execUnpackMotion (s : State) : Out := unpack .motion s

/-- `unpack_environmental` (R107). -/
def execUnpackEnvironmental (s : State) : Out := unpack .environmental s

/-- `unpack_air_quality` (R108). -/
def execUnpackAirQuality (s : State) : Out := unpack .airQuality s

/-- `unpack_secondary_accel` (R109). -/
def execUnpackSecondaryAccel (s : State) : Out := unpack .secondaryAccel s

/-- `unpack_altitude` (R110). -/
def execUnpackAltitude (s : State) : Out := unpack .altitude s

/-- `unpack_orientation` (R111). -/
def execUnpackOrientation (s : State) : Out := unpack .orientation s

/-- `unpack_command` (R112). -/
def execUnpackCommand (s : State) : Out := unpack .command s

/-- `unpack_info` (R113). -/
def execUnpackInfo (s : State) : Out := unpack .info s

end Sys2Proof.Machine
end

