-- ==== Sys2Proof/Machine/Dispatch.lean ====
section
/-!
DEFINITION. One arm per instruction, each one call of its meaning.
-/

namespace Sys2Proof.Machine

def exec (i : Instr) (s : State) : Host.Outcome State Fault Refusal :=
  match i with
  | .encodeHeader => Sys2Proof.Machine.execEncodeHeader s
  | .decodeHeader => Sys2Proof.Machine.execDecodeHeader s
  | .typeOf => Sys2Proof.Machine.execTypeOf s
  | .packMotion => Sys2Proof.Machine.execPackMotion s
  | .packEnvironmental => Sys2Proof.Machine.execPackEnvironmental s
  | .packAirQuality => Sys2Proof.Machine.execPackAirQuality s
  | .packSecondaryAccel => Sys2Proof.Machine.execPackSecondaryAccel s
  | .packAltitude => Sys2Proof.Machine.execPackAltitude s
  | .packOrientation => Sys2Proof.Machine.execPackOrientation s
  | .packCommand => Sys2Proof.Machine.execPackCommand s
  | .packInfo => Sys2Proof.Machine.execPackInfo s
  | .unpackMotion => Sys2Proof.Machine.execUnpackMotion s
  | .unpackEnvironmental => Sys2Proof.Machine.execUnpackEnvironmental s
  | .unpackAirQuality => Sys2Proof.Machine.execUnpackAirQuality s
  | .unpackSecondaryAccel => Sys2Proof.Machine.execUnpackSecondaryAccel s
  | .unpackAltitude => Sys2Proof.Machine.execUnpackAltitude s
  | .unpackOrientation => Sys2Proof.Machine.execUnpackOrientation s
  | .unpackCommand => Sys2Proof.Machine.execUnpackCommand s
  | .unpackInfo => Sys2Proof.Machine.execUnpackInfo s
  | .decode => Sys2Proof.Machine.execDecode s
  | .frameNull flags time => Sys2Proof.Machine.execFrameNull flags time s
  | .frameMotion flags time p => Sys2Proof.Machine.execFrameMotion flags time p s
  | .frameEnvironmental flags time p => Sys2Proof.Machine.execFrameEnvironmental flags time p s
  | .frameAirQuality flags time p => Sys2Proof.Machine.execFrameAirQuality flags time p s
  | .frameSecondaryAccel flags time p => Sys2Proof.Machine.execFrameSecondaryAccel flags time p s
  | .frameAltitude flags time p => Sys2Proof.Machine.execFrameAltitude flags time p s
  | .frameOrientation flags time p => Sys2Proof.Machine.execFrameOrientation flags time p s
  | .frameCommand flags time => Sys2Proof.Machine.execFrameCommand flags time s
  | .frameInfo flags time buf => Sys2Proof.Machine.execFrameInfo flags time buf s

end Sys2Proof.Machine
end

