-- ==== Sys2Proof/Machine/Step.lean ====
section
/-!
DEFINITION. One step: the input ports as they are driven now are served, and then no request is presented until the callers drive one
(spec/70_reset_and_hazards.md R155, R158; log entries 4 to 7).
-/

namespace Sys2Proof.Machine

/-- One step. With `rst` asserted no request is served and a request in progress gets no response (R155); with no request presented
there is no response; a request the caller does not hold stable is refused (R160 a, spec/93 U9); a reserved code on `op` is IllegalOp
(R72, R144); any other code runs its operation. -/
def step (s : State) : Host.Outcome State Fault Refusal :=
  if s.inp.rst then .next s.noResponse.advance
  else if !s.inp.reqValid then .next s.noResponse.advance
  else if !s.inp.held then .refused .requestNotHeld
  else
    match fetch s with
    | .error e => Out.map State.advance (raise e s)
    | .ok i => Out.map State.advance (exec i s)

/-- `s` with a word of the opcode table where the next step finds it (log entry 10): an operation's code is presented on `op`; a
packet, its later bytes 0, is presented to `decode` in `ibuf`, with its length. -/
def State.withFetchWord (s : State) (nbits w : Nat) : State :=
  match placeTableWord nbits w with
  | .op code => s.present { s.inp.req with op := code }
  | .packet bytes =>
    s.present
      { s.inp.req with
        op := 0x30#6
        ibufLen := BitVec.ofNat 16 (paddedLength bytes)
        ibuf := Memory.load [] 0 (bytes.take Config.bufMax) }

end Sys2Proof.Machine
end

