-- ==== Sys2Proof/Machine/Flags.lean ====
section
/-!
DEFINITION. The status of a response (spec/30_encoding.md R73). The block has no condition codes and no sticky flag
(spec/10_state.md R24): the status port of each response is all there is, and the header's flags nibble is caller data.
-/

namespace Sys2Proof.Machine

/-- The status values; codes 8 to 15 are never produced, so they have no constructor (R73, spec/93 U12). -/
inductive Status where
  | ok
  | truncatedBuffer
  | sizeMismatch
  | unknownFrameType
  | typeMismatch
  | messageTruncated
  | invalidType
  | illegalOp
  deriving DecidableEq, Repr

/-- The 4-bit code on the port (R73). -/
def Status.code : Status → BitVec 4
  | .ok => 0
  | .truncatedBuffer => 1
  | .sizeMismatch => 2
  | .unknownFrameType => 3
  | .typeMismatch => 4
  | .messageTruncated => 5
  | .invalidType => 6
  | .illegalOp => 7

/-- The status of an error (R136). -/
def errorStatus : ErrorKind → Status
  | .truncatedBuffer => .truncatedBuffer
  | .sizeMismatch => .sizeMismatch
  | .unknownFrameType => .unknownFrameType
  | .typeMismatch => .typeMismatch
  | .invalidType => .invalidType
  | .illegalOp => .illegalOp

/-- The status of a response; the warning replaces OK (R143). -/
def Response.status : Response → Status
  | .error e => errorStatus e
  | .done truncated _ => if truncated then .messageTruncated else .ok

/-- The results of a response; an error has none (R137). -/
def Response.results : Response → Option Results
  | .error _ => none
  | .done _ r => some r

/-- `rsp_valid` (R20). -/
def State.rspValid (s : State) : Bool := s.rsp.isSome

/-- The status port; it has no value while `rsp_valid = 0` (R29). -/
def State.status (s : State) : Option Status := s.rsp.map Response.status

/-- The result ports; they have no value while `rsp_valid = 0` or on an error (R29, R137). -/
def State.results (s : State) : Option Results := s.rsp.bind Response.results

end Sys2Proof.Machine
end

