-- ==== Sys2Proof/Machine/Run.lean ====
section
/-!
DEFINITION. The sequence of requests as what spec/10_state.md R30 says it is: a parameter of the step, not a field of the machine.
A run is over a finite list of drives (spec/70_reset_and_hazards.md R163).
-/

namespace Sys2Proof.Machine

/-- One step in which the callers drive `d` (R30). -/
def stepOn (d : Drive) (s : State) : Out := step (s.drive d)

/-- A run over what the callers drive, one step each, stopping at the first fault or refusal (R163). -/
def runOn (ds : List Drive) (s : State) : Out :=
  match ds with
  | [] => .next s
  | d :: rest =>
    match stepOn d s with
    | .next t => runOn rest t
    | .fault r => .fault r
    | .refused r => .refused r

/-- Does the drive make a request that is served: one is presented, and `rst` is released (R155, R158)? -/
def Drive.serves (d : Drive) : Bool := d.reqValid && !d.rst

/-- The requests of a run that get a response, in their order (R163). -/
def requestsOf (ds : List Drive) : List Request := (ds.filter Drive.serves).map Drive.req

end Sys2Proof.Machine
end

