-- ==== Sys2Proof/Safety.lean ====
section
/-!
DEFINITION. What claims are stated in: the spec's own formulas for bytes and fields (spec/20_memory.md R36, R37), the tables of which
ports an operation reads (spec/10_state.md R25) and which status it can give (spec/60_exceptions.md R146), and the invariants of a run.
-/

namespace Sys2Proof.Safety

open Sys2Proof.Machine

-- The formulas of the spec, on natural numbers

/-- `MemRead(a, n)`: the big-endian sum of `n` bytes (R36). -/
def memRead (rd : Nat → Byte) (a n : Nat) : Nat :=
  ((List.range n).map fun k => (rd (a + k)).toNat * 256 ^ (n - 1 - k)).sum

/-- `sint_N(v)`: the two's complement value of an N-bit number (spec/00_scope.md R10). -/
def sint (width v : Nat) : Int := if v < 2 ^ (width - 1) then (v : Int) else (v : Int) - 2 ^ width

/-- The bytes hold `v` at index `a` as `MemWrite(a, n, v)` leaves it: byte `a + k` is `(v >> (8*(n-1-k))) & 0xFF` (R37). -/
def FieldAt (bytes : List Byte) (a n v : Nat) : Prop :=
  ∀ k, k < n → bytes[a + k]? = some (BitVec.ofNat 8 (v >>> (8 * (n - 1 - k)) % 256))

/-- The bytes begin with the header of type number `type` and the request's flags and time operands (spec/41_pack.md R90). -/
def HeaderOf (bytes : List Byte) (type : Nat) (q : Request) : Prop :=
  FieldAt bytes 0 1 (type * 16 + q.flagsIn.toNat % 16) ∧ FieldAt bytes 1 2 (q.timeIn.toNat % 65536)

/-- The next state of an operation that answers `r` and changes nothing else: the response, and the pair in the observation. -/
def answered (s : State) (r : Response) : Out :=
  .next { inp := s.inp, rsp := some r, trace := s.trace ++ [(s.inp.req, r)] }

/-- The encode-side results: `n` and the bytes. -/
def produced (n : Nat) (bytes : List Byte) : Results := { obufLen := some (BitVec.ofNat 9 n), obuf := some bytes }

/-- The type nibble of byte 0, as a number. -/
def typeNibble (q : Request) : Nat := (q.ibuf.read 0).toNat / 16

/-- The header a buffer carries, and the slots `xs`. -/
def headerAnd (q : Request) (xs : List Word) : Results :=
  { hdrType := some (BitVec.ofNat 4 (typeNibble q))
    hdrFlags := some (BitVec.ofNat 4 ((q.ibuf.read 0).toNat % 16))
    hdrTime := some (BitVec.ofNat 16 (memRead q.ibuf.read 1 2))
    x := xs }

/-- The 32-bit field at index `a` in its slot. -/
def field32 (q : Request) (a : Nat) : Word := BitVec.ofNat 32 (memRead q.ibuf.read a 4)

/-- The 16-bit signed field at index `a` in its slot (spec/10_state.md R21). -/
def field16 (q : Request) (a : Nat) : Word := BitVec.ofInt 32 (sint 16 (memRead q.ibuf.read a 2))

-- The kinds and their operations

/-- `LEN[t]` by discriminant (spec/00_scope.md R8): the nine assigned types. -/
def lengthOf : Nat → Nat
  | 0 => 3
  | 1 => 39
  | 2 => 19
  | 3 => 7
  | 4 => 15
  | 5 => 7
  | 6 => 9
  | 7 => 3
  | 8 => 303
  | _ => 0

/-- The pack operation of a kind, by discriminant (spec/30_encoding.md R71). -/
def packOf : Nat → Option Instr
  | 1 => some .packMotion
  | 2 => some .packEnvironmental
  | 3 => some .packAirQuality
  | 4 => some .packSecondaryAccel
  | 5 => some .packAltitude
  | 6 => some .packOrientation
  | 7 => some .packCommand
  | 8 => some .packInfo
  | _ => none

/-- The unpack operation of a kind, by discriminant (spec/30_encoding.md R71). -/
def unpackOf : Nat → Option Instr
  | 1 => some .unpackMotion
  | 2 => some .unpackEnvironmental
  | 3 => some .unpackAirQuality
  | 4 => some .unpackSecondaryAccel
  | 5 => some .unpackAltitude
  | 6 => some .unpackOrientation
  | 7 => some .unpackCommand
  | 8 => some .unpackInfo
  | _ => none

/-- The twenty operations of R71, with their codes. -/
def operations : List (BitVec 6 × Instr) :=
  [(0x00, .encodeHeader), (0x01, .decodeHeader), (0x02, .typeOf),
   (0x11, .packMotion), (0x12, .packEnvironmental), (0x13, .packAirQuality), (0x14, .packSecondaryAccel),
   (0x15, .packAltitude), (0x16, .packOrientation), (0x17, .packCommand), (0x18, .packInfo),
   (0x21, .unpackMotion), (0x22, .unpackEnvironmental), (0x23, .unpackAirQuality), (0x24, .unpackSecondaryAccel),
   (0x25, .unpackAltitude), (0x26, .unpackOrientation), (0x27, .unpackCommand), (0x28, .unpackInfo),
   (0x30, .decode)]

/-- The statuses an operation can give (R146); the packets of format FRAME are not in that table. -/
def statuses : Instr → List Status
  | .encodeHeader => [.ok, .invalidType]
  | .decodeHeader | .typeOf => [.ok, .truncatedBuffer]
  | .packMotion | .packEnvironmental | .packAirQuality | .packSecondaryAccel | .packAltitude | .packOrientation
  | .packCommand => [.ok]
  | .packInfo => [.ok, .messageTruncated]
  | .unpackMotion | .unpackEnvironmental | .unpackAirQuality | .unpackSecondaryAccel | .unpackAltitude
  | .unpackOrientation | .unpackCommand | .unpackInfo => [.ok, .sizeMismatch, .typeMismatch]
  | .decode => [.ok, .truncatedBuffer, .sizeMismatch, .unknownFrameType]
  | .frameNull .. | .frameMotion .. | .frameEnvironmental .. | .frameAirQuality .. | .frameSecondaryAccel ..
  | .frameAltitude .. | .frameOrientation .. | .frameCommand .. | .frameInfo .. => []

-- What a packet carries from the request that was packed (spec/42_unpack.md R116)

/-- A 16-bit field operand as it comes back in a slot: the signed value of the low half of the request slot. -/
def half (v : Word) : Word := BitVec.ofInt 32 (sint 16 (v.toNat % 65536))

/-- The INFO results that carry the message of `q`, `m = min(msg_len, 299)` bytes of it: the message, then zeros to 300 bytes; `info_len`
is `m`, or the index of the first 0x00 among the `m` bytes when there is one. -/
def CarriesMessage (q : Request) (r : Results) : Prop :=
  ∃ buf n, r.infoBuf = some buf ∧ r.infoLen = some (BitVec.ofNat 9 n) ∧ buf.length = 300 ∧
    (∀ j, j < min q.msgLen.toNat 299 → buf[j]? = some (q.msg.read j)) ∧
    (∀ j, min q.msgLen.toNat 299 ≤ j → j < 300 → buf[j]? = some 0) ∧
    n ≤ min q.msgLen.toNat 299 ∧ (∀ j, j < n → q.msg.read j ≠ 0) ∧
    (n < min q.msgLen.toNat 299 → q.msg.read n = 0)

/-- The results carry the header operands of `q` under type `k`, and the fields of kind `k` that `q` presents. -/
def Carries (k : Nat) (q : Request) (r : Results) : Prop :=
  r.hdrType = some (BitVec.ofNat 4 k) ∧ r.hdrFlags = some (BitVec.ofNat 4 q.flagsIn.toNat) ∧
    r.hdrTime = some (BitVec.ofNat 16 q.timeIn.toNat) ∧
    match k with
    | 1 => r.x = [q.x[0], q.x[1], q.x[2], q.x[3], q.x[4], q.x[5], q.x[6], q.x[7], q.x[8]]
    | 2 => r.x = [q.x[0], q.x[1], q.x[2], q.x[3]]
    | 3 => r.x = [half q.x[0], half q.x[1]]
    | 4 => r.x = [q.x[0], q.x[1], q.x[2]]
    | 5 => r.x = [q.x[0]]
    | 6 => r.x = [half q.x[0], half q.x[1], half q.x[2]]
    | 7 => r.x = []
    | 8 => r.x = [] ∧ CarriesMessage q r
    | _ => False

/-- The request presents what the results carry: the header, the slots, and for INFO the message before the terminator. -/
def Presents (q : Request) (r : Results) : Prop :=
  r.hdrFlags = some (BitVec.ofNat 4 q.flagsIn.toNat) ∧ r.hdrTime = some (BitVec.ofNat 16 q.timeIn.toNat) ∧
    (∀ n : Fin 9, ∀ v, r.x[n.val]? = some v → q.x[n] = v) ∧
    ∀ buf, r.infoBuf = some buf →
      r.infoLen = some (BitVec.ofNat 9 q.msgLen.toNat) ∧ q.msgLen.toNat ≤ 300 ∧
        ∀ j, j < q.msgLen.toNat → buf[j]? = some (q.msg.read j)

/-- Apart from INFO, anything; for INFO, the payload has a terminator and every byte from the first one on is 0x00 (R116). -/
def PaddedWithZeros (r : Results) : Prop :=
  ∀ buf, r.infoBuf = some buf →
    ∃ n, n < 300 ∧ r.infoLen = some (BitVec.ofNat 9 n) ∧ ∀ j, n ≤ j → j < 300 → buf[j]? = some 0

-- Which ports an operation reads (R25, with R17 for the slots and R19 for the buffers)

/-- The two requests carry the same buffer: the same length, and the same bytes below it. -/
def sameBuffer (q q' : Request) : Prop :=
  q.ibufLen = q'.ibufLen ∧ ∀ a, a < q.ibufLen.toNat → q.ibuf.read a = q'.ibuf.read a

/-- The two requests carry the same `flags_in[3:0]` and `time_in[15:0]` (R18). -/
def sameHeaderOperands (q q' : Request) : Prop :=
  q.flagsIn.toNat % 16 = q'.flagsIn.toNat % 16 ∧ q.timeIn.toNat % 65536 = q'.timeIn.toNat % 65536

/-- The two requests carry the same values on the first `n` slots, read as `width`-bit fields (R17). -/
def sameSlots (n width : Nat) (q q' : Request) : Prop :=
  ∀ i : Fin 9, i.val < n → q.x[i].toNat % 2 ^ width = q'.x[i].toNat % 2 ^ width

/-- The two requests agree on every port, and every part of a port, that the operation reads. -/
def SameOperands (i : Instr) (q q' : Request) : Prop :=
  match i with
  | .encodeHeader => q.typeIn = q'.typeIn ∧ sameHeaderOperands q q'
  | .decodeHeader | .typeOf | .unpackMotion | .unpackEnvironmental | .unpackAirQuality | .unpackSecondaryAccel
  | .unpackAltitude | .unpackOrientation | .unpackCommand | .unpackInfo | .decode => sameBuffer q q'
  | .packMotion => sameHeaderOperands q q' ∧ sameSlots 9 32 q q'
  | .packEnvironmental => sameHeaderOperands q q' ∧ sameSlots 4 32 q q'
  | .packAirQuality => sameHeaderOperands q q' ∧ sameSlots 2 16 q q'
  | .packSecondaryAccel => sameHeaderOperands q q' ∧ sameSlots 3 32 q q'
  | .packAltitude => sameHeaderOperands q q' ∧ sameSlots 1 32 q q'
  | .packOrientation => sameHeaderOperands q q' ∧ sameSlots 3 16 q q'
  | .packCommand => sameHeaderOperands q q'
  | .packInfo =>
    sameHeaderOperands q q' ∧ q.msgLen = q'.msgLen ∧
      ∀ a, a < q.msgLen.toNat → a < 299 → q.msg.read a = q'.msg.read a
  | .frameNull .. | .frameMotion .. | .frameEnvironmental .. | .frameAirQuality .. | .frameSecondaryAccel ..
  | .frameAltitude .. | .frameOrientation .. | .frameCommand .. | .frameInfo .. => True

-- Runs

/-- A request is being served in this step: presented, held stable, `rst` released (R155, R158, R160 a). -/
def Serving (s : State) : Prop := s.inp.rst = false ∧ s.inp.reqValid = true ∧ s.inp.held = true

/-- The response the block gives to `q` when it is the first request after reset. -/
def AnswersFresh (q : Request) (r : Response) : Prop :=
  ∃ t, step (State.reset.present q) = .next t ∧ t.rsp = some r

/-- Only wires that exist are driven, and every byte space is in its canonical form: now, and in the requests observed. -/
def PortsCanonical (s : State) : Prop :=
  s.inp.req.wf = true ∧ ∀ p ∈ s.trace, p.1.wf = true

/-- The result ports a response drives fit together (R20 to R23): `obuf` has `obuf_len` bytes, at most 303; `info_buf` has 300 bytes and
`info_len` is the index of its first terminator or 300; at most nine slots; the encode side drives no header and the decode side no
`obuf`. -/
def ResultsFit (r : Results) : Prop :=
  (match r.obuf with
    | none => r.obufLen = none
    | some bytes => bytes.length ≤ 303 ∧ r.obufLen = some (BitVec.ofNat 9 bytes.length) ∧ r.hdrType = none) ∧
  (match r.infoBuf with
    | none => r.infoLen = none
    | some buf =>
      buf.length = 300 ∧ r.hdrType = some 8 ∧ ∃ n, n ≤ 300 ∧ r.infoLen = some (BitVec.ofNat 9 n) ∧
        (∀ j, j < n → buf[j]? ≠ some 0) ∧ (n < 300 → buf[n]? = some 0)) ∧
  r.x.length ≤ 9 ∧ (r.x ≠ [] → r.infoBuf = none ∧ r.obuf = none) ∧ (r.hdrFlags.isSome → r.hdrType.isSome) ∧
  r.hdrFlags.isSome = r.hdrTime.isSome

/-- The results of a response fit together, and only an encode-side result can carry the warning (R143). -/
def ResponseFits : Response → Prop
  | .error _ => True
  | .done truncated r => ResultsFit r ∧ (truncated = true → r.obufLen = some 303)

/-- Every response observed, and the one on the ports, fits together. -/
def ResponsesFit (s : State) : Prop :=
  (∀ r, s.rsp = some r → ResponseFits r) ∧ ∀ p ∈ s.trace, ResponseFits p.2

/-- The block keeps nothing (R13, R159): every response observed is the one its request gets as the first request after reset. -/
def HistoryFree (s : State) : Prop := ∀ p ∈ s.trace, AnswersFresh p.1 p.2

/-- The response on the ports is the last one observed (R158). -/
def ResponseIsLast (s : State) : Prop := ∀ r, s.rsp = some r → ∃ q, s.trace.getLast? = some (q, r)

end Sys2Proof.Safety
end

