-- ==== Sys2Proof/Certificates/Slice0/Obligations.lean ====
section
/-!
DEFINITION. The statements for the provers. Each docstring names the rules of spec/ it formalises. `q` is the presented request of the
state; `answered s r` is the next state that has the response `r`, the pair (request, `r`) added to the observation, and nothing else
changed, so a conclusion of that form says the frame as well.
-/

open Sys2Proof Sys2Proof.Machine Sys2Proof.Safety

-- Header codec (spec/40_header_codec.md)

/-- R81: three bytes, `{type, flags}` and the time, big-endian, flags and time narrowed silently; a type above 15 is InvalidType. -/
def Obligations.EncodeHeaderWritesTheHeader : Prop :=
  decodeOp 0x00 = .ok .encodeHeader ∧
  ∀ s : State,
    (s.inp.req.typeIn.toNat ≤ 15 →
      ∃ bytes, exec .encodeHeader s = answered s (.done false (produced 3 bytes)) ∧ bytes.length = 3 ∧
        HeaderOf bytes s.inp.req.typeIn.toNat s.inp.req) ∧
    (15 < s.inp.req.typeIn.toNat → exec .encodeHeader s = answered s (.error .invalidType))

/-- R82: type, flags and time from the first three bytes of any buffer that has them; else TruncatedBuffer. -/
def Obligations.DecodeHeaderReadsTheHeader : Prop :=
  decodeOp 0x01 = .ok .decodeHeader ∧
  ∀ s : State,
    (3 ≤ s.inp.req.ibufLen.toNat →
      exec .decodeHeader s = answered s (.done false (headerAnd s.inp.req []))) ∧
    (s.inp.req.ibufLen.toNat < 3 → exec .decodeHeader s = answered s (.error .truncatedBuffer))

/-- R83: the high nibble of byte 0 alone, from any buffer that has a byte; else TruncatedBuffer. -/
def Obligations.TypeOfPeeksTheNibble : Prop :=
  decodeOp 0x02 = .ok .typeOf ∧
  ∀ s : State,
    (1 ≤ s.inp.req.ibufLen.toNat →
      exec .typeOf s =
        answered s (.done false { hdrType := some (BitVec.ofNat 4 ((s.inp.req.ibuf.read 0).toNat / 16)) })) ∧
    (s.inp.req.ibufLen.toNat = 0 → exec .typeOf s = answered s (.error .truncatedBuffer))

/-- R84: decode_header inverts encode_header on every type 0 to 15, and encode_header gives back the three bytes decode_header read. -/
def Obligations.HeaderRoundTrips : Prop :=
  (∀ s u : State, s.inp.req.typeIn.toNat ≤ 15 → u.inp.req.wf = true →
    ∃ bytes, exec .encodeHeader s = answered s (.done false (produced 3 bytes)) ∧
      exec .decodeHeader (u.present (u.inp.req.withBuffer bytes)) =
        answered (u.present (u.inp.req.withBuffer bytes))
          (.done false
            { hdrType := some (BitVec.ofNat 4 s.inp.req.typeIn.toNat)
              hdrFlags := some (BitVec.ofNat 4 s.inp.req.flagsIn.toNat)
              hdrTime := some (BitVec.ofNat 16 s.inp.req.timeIn.toNat) })) ∧
  (∀ s u : State, s.inp.req.ibufLen.toNat = 3 →
    ∃ r, exec .decodeHeader s = answered s (.done false r) ∧
      (r.hdrType = some (BitVec.ofNat 4 u.inp.req.typeIn.toNat) → u.inp.req.typeIn.toNat ≤ 15 →
        r.hdrFlags = some (BitVec.ofNat 4 u.inp.req.flagsIn.toNat) →
        r.hdrTime = some (BitVec.ofNat 16 u.inp.req.timeIn.toNat) →
        ∃ bytes, exec .encodeHeader u = answered u (.done false (produced 3 bytes)) ∧ bytes.length = 3 ∧
          ∀ a, a < 3 → bytes[a]? = some (s.inp.req.ibuf.read a)))

/-- R85: decode_header and type_of return the unassigned types 9 to 15 with OK; decode and every unpack operation reject them. -/
def Obligations.UnassignedTypesPassTheHeaderCodecOnly : Prop :=
  ∀ s : State, 9 ≤ typeNibble s.inp.req → 3 ≤ s.inp.req.ibufLen.toNat →
    (∃ r, exec .decodeHeader s = answered s (.done false r) ∧
      r.hdrType = some (BitVec.ofNat 4 (typeNibble s.inp.req))) ∧
    (∃ r, exec .typeOf s = answered s (.done false r) ∧ r.hdrType = some (BitVec.ofNat 4 (typeNibble s.inp.req))) ∧
    exec .decode s = answered s (.error .unknownFrameType) ∧
    ∀ k i, unpackOf k = some i →
      (s.inp.req.ibufLen.toNat = lengthOf k → exec i s = answered s (.error .typeMismatch)) ∧
      (s.inp.req.ibufLen.toNat ≠ lengthOf k → exec i s = answered s (.error .sizeMismatch))

-- Payload codec, encode side (spec/41_pack.md)

/-- R91: a 39-byte packet, header of type 1, then nine 32-bit fields. -/
def Obligations.PackMotionBuildsThePacket : Prop :=
  decodeOp 0x11 = .ok .packMotion ∧
  ∀ s : State, ∃ bytes,
    exec .packMotion s = answered s (.done false (produced 39 bytes)) ∧ bytes.length = 39 ∧
      HeaderOf bytes 1 s.inp.req ∧ ∀ i : Fin 9, FieldAt bytes (3 + 4 * i) 4 s.inp.req.x[i].toNat

/-- R92: a 19-byte packet, header of type 2, then temperature, pressure, humidity, altitude. -/
def Obligations.PackEnvironmentalBuildsThePacket : Prop :=
  decodeOp 0x12 = .ok .packEnvironmental ∧
  ∀ s : State, ∃ bytes,
    exec .packEnvironmental s = answered s (.done false (produced 19 bytes)) ∧ bytes.length = 19 ∧
      HeaderOf bytes 2 s.inp.req ∧ FieldAt bytes 3 4 s.inp.req.x[0].toNat ∧ FieldAt bytes 7 4 s.inp.req.x[1].toNat ∧
      FieldAt bytes 11 4 s.inp.req.x[2].toNat ∧ FieldAt bytes 15 4 s.inp.req.x[3].toNat

/-- R93: a 7-byte packet, header of type 3, then two 16-bit fields, the low halves of their slots. -/
def Obligations.PackAirQualityBuildsThePacket : Prop :=
  decodeOp 0x13 = .ok .packAirQuality ∧
  ∀ s : State, ∃ bytes,
    exec .packAirQuality s = answered s (.done false (produced 7 bytes)) ∧ bytes.length = 7 ∧
      HeaderOf bytes 3 s.inp.req ∧ FieldAt bytes 3 2 (s.inp.req.x[0].toNat % 65536) ∧
      FieldAt bytes 5 2 (s.inp.req.x[1].toNat % 65536)

/-- R94: a 15-byte packet, header of type 4, then three 32-bit fields. -/
def Obligations.PackSecondaryAccelBuildsThePacket : Prop :=
  decodeOp 0x14 = .ok .packSecondaryAccel ∧
  ∀ s : State, ∃ bytes,
    exec .packSecondaryAccel s = answered s (.done false (produced 15 bytes)) ∧ bytes.length = 15 ∧
      HeaderOf bytes 4 s.inp.req ∧ FieldAt bytes 3 4 s.inp.req.x[0].toNat ∧ FieldAt bytes 7 4 s.inp.req.x[1].toNat ∧
      FieldAt bytes 11 4 s.inp.req.x[2].toNat

/-- R95: a 7-byte packet, header of type 5, then one 32-bit field. -/
def Obligations.PackAltitudeBuildsThePacket : Prop :=
  decodeOp 0x15 = .ok .packAltitude ∧
  ∀ s : State, ∃ bytes,
    exec .packAltitude s = answered s (.done false (produced 7 bytes)) ∧ bytes.length = 7 ∧
      HeaderOf bytes 5 s.inp.req ∧ FieldAt bytes 3 4 s.inp.req.x[0].toNat

/-- R96: a 9-byte packet, header of type 6, then three 16-bit fields, the low halves of their slots. -/
def Obligations.PackOrientationBuildsThePacket : Prop :=
  decodeOp 0x16 = .ok .packOrientation ∧
  ∀ s : State, ∃ bytes,
    exec .packOrientation s = answered s (.done false (produced 9 bytes)) ∧ bytes.length = 9 ∧
      HeaderOf bytes 6 s.inp.req ∧ FieldAt bytes 3 2 (s.inp.req.x[0].toNat % 65536) ∧
      FieldAt bytes 5 2 (s.inp.req.x[1].toNat % 65536) ∧ FieldAt bytes 7 2 (s.inp.req.x[2].toNat % 65536)

/-- R97: a 3-byte packet, the header of type 7 alone; the bytes are those of encode_header with type 7. -/
def Obligations.PackCommandIsTheHeaderAlone : Prop :=
  decodeOp 0x17 = .ok .packCommand ∧
  ∀ s : State, ∃ bytes,
    exec .packCommand s = answered s (.done false (produced 3 bytes)) ∧ bytes.length = 3 ∧ HeaderOf bytes 7 s.inp.req ∧
      ∀ u : State, u.inp.req.typeIn = 7 → u.inp.req.flagsIn = s.inp.req.flagsIn → u.inp.req.timeIn = s.inp.req.timeIn →
        exec .encodeHeader u = answered u (.done false (produced 3 bytes))

/-- R98: a 303-byte packet, header of type 8, then `min(msg_len, 299)` message bytes and zeros to 300; the warning exactly when
`msg_len > 299`. -/
def Obligations.PackInfoCopiesAndPads : Prop :=
  decodeOp 0x18 = .ok .packInfo ∧
  ∀ s : State, ∃ bytes,
    exec .packInfo s = answered s (.done (decide (299 < s.inp.req.msgLen.toNat)) (produced 303 bytes)) ∧
      bytes.length = 303 ∧ HeaderOf bytes 8 s.inp.req ∧
      (∀ j, j < min s.inp.req.msgLen.toNat 299 → bytes[3 + j]? = some (s.inp.req.msg.read j)) ∧
      ∀ j, min s.inp.req.msgLen.toNat 299 ≤ j → j < 300 → bytes[3 + j]? = some 0

/-- R47: the output length is a constant of the operation, for every operand value. -/
def Obligations.OutputLengthIsConstant : Prop :=
  ∀ p ∈ [(Instr.encodeHeader, 3), (.packMotion, 39), (.packEnvironmental, 19), (.packAirQuality, 7),
      (.packSecondaryAccel, 15), (.packAltitude, 7), (.packOrientation, 9), (.packCommand, 3), (.packInfo, 303)],
    ∀ (s t : State) (r : Results), exec p.1 s = .next t → t.results = some r →
      r.obufLen = some (BitVec.ofNat 9 p.2) ∧ ∃ bytes, r.obuf = some bytes ∧ bytes.length = p.2

/-- R100: exactly capacity is untruncated, one byte over is the warning, and either way unpack_info of the packet gives the 299 bytes. -/
def Obligations.InfoTruncationIsObservable : Prop :=
  ∀ s u : State, u.inp.req.wf = true → (∀ j, j < 299 → s.inp.req.msg.read j ≠ 0) →
    s.inp.req.msgLen.toNat = 299 ∨ s.inp.req.msgLen.toNat = 300 →
    ∃ bytes r buf,
      exec .packInfo s = answered s (.done (decide (s.inp.req.msgLen.toNat = 300)) (produced 303 bytes)) ∧
        exec .unpackInfo (u.present (u.inp.req.withBuffer bytes)) =
          answered (u.present (u.inp.req.withBuffer bytes)) (.done false r) ∧
        r.infoLen = some 299 ∧ r.infoBuf = some buf ∧ ∀ j, j < 299 → buf[j]? = some (s.inp.req.msg.read j)

-- Payload codec, decode side (spec/42_unpack.md)

/-- R106: exactly 39 bytes, else SizeMismatch; type 1, else TypeMismatch; then the header and nine 32-bit fields. -/
def Obligations.UnpackMotionReadsThePacket : Prop :=
  decodeOp 0x21 = .ok .unpackMotion ∧
  ∀ s : State,
    (s.inp.req.ibufLen.toNat ≠ 39 → exec .unpackMotion s = answered s (.error .sizeMismatch)) ∧
    (s.inp.req.ibufLen.toNat = 39 → typeNibble s.inp.req ≠ 1 →
      exec .unpackMotion s = answered s (.error .typeMismatch)) ∧
    (s.inp.req.ibufLen.toNat = 39 → typeNibble s.inp.req = 1 →
      exec .unpackMotion s =
        answered s (.done false (headerAnd s.inp.req ((List.range 9).map fun i => field32 s.inp.req (3 + 4 * i)))))

/-- R107: exactly 19 bytes, type 2; temperature, pressure, humidity, altitude. -/
def Obligations.UnpackEnvironmentalReadsThePacket : Prop :=
  decodeOp 0x22 = .ok .unpackEnvironmental ∧
  ∀ s : State,
    (s.inp.req.ibufLen.toNat ≠ 19 → exec .unpackEnvironmental s = answered s (.error .sizeMismatch)) ∧
    (s.inp.req.ibufLen.toNat = 19 → typeNibble s.inp.req ≠ 2 →
      exec .unpackEnvironmental s = answered s (.error .typeMismatch)) ∧
    (s.inp.req.ibufLen.toNat = 19 → typeNibble s.inp.req = 2 →
      exec .unpackEnvironmental s =
        answered s (.done false (headerAnd s.inp.req
          [field32 s.inp.req 3, field32 s.inp.req 7, field32 s.inp.req 11, field32 s.inp.req 15])))

/-- R108: exactly 7 bytes, type 3; two 16-bit fields, sign-extended. -/
def Obligations.UnpackAirQualityReadsThePacket : Prop :=
  decodeOp 0x23 = .ok .unpackAirQuality ∧
  ∀ s : State,
    (s.inp.req.ibufLen.toNat ≠ 7 → exec .unpackAirQuality s = answered s (.error .sizeMismatch)) ∧
    (s.inp.req.ibufLen.toNat = 7 → typeNibble s.inp.req ≠ 3 →
      exec .unpackAirQuality s = answered s (.error .typeMismatch)) ∧
    (s.inp.req.ibufLen.toNat = 7 → typeNibble s.inp.req = 3 →
      exec .unpackAirQuality s =
        answered s (.done false (headerAnd s.inp.req [field16 s.inp.req 3, field16 s.inp.req 5])))

/-- R109: exactly 15 bytes, type 4; three 32-bit fields. -/
def Obligations.UnpackSecondaryAccelReadsThePacket : Prop :=
  decodeOp 0x24 = .ok .unpackSecondaryAccel ∧
  ∀ s : State,
    (s.inp.req.ibufLen.toNat ≠ 15 → exec .unpackSecondaryAccel s = answered s (.error .sizeMismatch)) ∧
    (s.inp.req.ibufLen.toNat = 15 → typeNibble s.inp.req ≠ 4 →
      exec .unpackSecondaryAccel s = answered s (.error .typeMismatch)) ∧
    (s.inp.req.ibufLen.toNat = 15 → typeNibble s.inp.req = 4 →
      exec .unpackSecondaryAccel s =
        answered s (.done false (headerAnd s.inp.req
          [field32 s.inp.req 3, field32 s.inp.req 7, field32 s.inp.req 11])))

/-- R110: exactly 7 bytes, type 5; one 32-bit field. -/
def Obligations.UnpackAltitudeReadsThePacket : Prop :=
  decodeOp 0x25 = .ok .unpackAltitude ∧
  ∀ s : State,
    (s.inp.req.ibufLen.toNat ≠ 7 → exec .unpackAltitude s = answered s (.error .sizeMismatch)) ∧
    (s.inp.req.ibufLen.toNat = 7 → typeNibble s.inp.req ≠ 5 →
      exec .unpackAltitude s = answered s (.error .typeMismatch)) ∧
    (s.inp.req.ibufLen.toNat = 7 → typeNibble s.inp.req = 5 →
      exec .unpackAltitude s = answered s (.done false (headerAnd s.inp.req [field32 s.inp.req 3])))

/-- R111: exactly 9 bytes, type 6; three 16-bit fields, sign-extended. -/
def Obligations.UnpackOrientationReadsThePacket : Prop :=
  decodeOp 0x26 = .ok .unpackOrientation ∧
  ∀ s : State,
    (s.inp.req.ibufLen.toNat ≠ 9 → exec .unpackOrientation s = answered s (.error .sizeMismatch)) ∧
    (s.inp.req.ibufLen.toNat = 9 → typeNibble s.inp.req ≠ 6 →
      exec .unpackOrientation s = answered s (.error .typeMismatch)) ∧
    (s.inp.req.ibufLen.toNat = 9 → typeNibble s.inp.req = 6 →
      exec .unpackOrientation s =
        answered s (.done false (headerAnd s.inp.req
          [field16 s.inp.req 3, field16 s.inp.req 5, field16 s.inp.req 7])))

/-- R112: exactly 3 bytes, type 7; the header alone, no slot driven. -/
def Obligations.UnpackCommandIsTheHeaderAlone : Prop :=
  decodeOp 0x27 = .ok .unpackCommand ∧
  ∀ s : State,
    (s.inp.req.ibufLen.toNat ≠ 3 → exec .unpackCommand s = answered s (.error .sizeMismatch)) ∧
    (s.inp.req.ibufLen.toNat = 3 → typeNibble s.inp.req ≠ 7 →
      exec .unpackCommand s = answered s (.error .typeMismatch)) ∧
    (s.inp.req.ibufLen.toNat = 3 → typeNibble s.inp.req = 7 →
      exec .unpackCommand s = answered s (.done false (headerAnd s.inp.req [])))

/-- R113: exactly 303 bytes, type 8; the 300 payload bytes as they are, and the least index of a 0x00 among them, or 300. -/
def Obligations.UnpackInfoReadsThePacket : Prop :=
  decodeOp 0x28 = .ok .unpackInfo ∧
  ∀ s : State,
    (s.inp.req.ibufLen.toNat ≠ 303 → exec .unpackInfo s = answered s (.error .sizeMismatch)) ∧
    (s.inp.req.ibufLen.toNat = 303 → typeNibble s.inp.req ≠ 8 →
      exec .unpackInfo s = answered s (.error .typeMismatch)) ∧
    (s.inp.req.ibufLen.toNat = 303 → typeNibble s.inp.req = 8 →
      ∃ n, n ≤ 300 ∧ (∀ j, j < n → s.inp.req.ibuf.read (3 + j) ≠ 0) ∧ (n < 300 → s.inp.req.ibuf.read (3 + n) = 0) ∧
        exec .unpackInfo s =
          answered s (.done false
            { headerAnd s.inp.req [] with
              infoLen := some (BitVec.ofNat 9 n)
              infoBuf := some ((List.range 300).map fun j => s.inp.req.ibuf.read (3 + j)) }))

/-- R114: every unpack operation on any length but its own, one less and one more among them, is SizeMismatch whatever the bytes are. -/
def Obligations.UnpackEnforcesTheSize : Prop :=
  ∀ k i, unpackOf k = some i → ∀ s : State,
    (s.inp.req.ibufLen.toNat + 1 = lengthOf k ∨ s.inp.req.ibufLen.toNat = lengthOf k + 1 ∨
      s.inp.req.ibufLen.toNat ≠ lengthOf k) →
    exec i s = answered s (.error .sizeMismatch)

/-- R115: the right length with the wrong type nibble is TypeMismatch; so the packets of AIR_QUALITY and ALTITUDE, of one length, are
told apart by their unpack operations. -/
def Obligations.UnpackGuardsTheType : Prop :=
  (∀ k i, unpackOf k = some i → ∀ s : State, s.inp.req.ibufLen.toNat = lengthOf k → typeNibble s.inp.req ≠ k →
    exec i s = answered s (.error .typeMismatch)) ∧
  ∀ s u : State, u.inp.req.wf = true → ∀ bytes,
    (exec .packAltitude s = answered s (.done false (produced 7 bytes)) →
      exec .unpackAirQuality (u.present (u.inp.req.withBuffer bytes)) =
        answered (u.present (u.inp.req.withBuffer bytes)) (.error .typeMismatch)) ∧
    (exec .packAirQuality s = answered s (.done false (produced 7 bytes)) →
      exec .unpackAltitude (u.present (u.inp.req.withBuffer bytes)) =
        answered (u.present (u.inp.req.withBuffer bytes)) (.error .typeMismatch))

/-- R116: unpack of what pack produced carries the operands back, for every kind and every operand value; and pack of what unpack
gave produces the buffer again, except an INFO payload with a non-zero byte after its first terminator, or without one. -/
def Obligations.PackAndUnpackAreInverse : Prop :=
  (∀ k i j, packOf k = some i → unpackOf k = some j → ∀ s u : State, u.inp.req.wf = true →
    ∃ w r bytes r', exec i s = answered s (.done w r) ∧ r.obuf = some bytes ∧
      exec j (u.present (u.inp.req.withBuffer bytes)) =
        answered (u.present (u.inp.req.withBuffer bytes)) (.done false r') ∧
      Carries k s.inp.req r') ∧
  (∀ k i j, packOf k = some i → unpackOf k = some j → ∀ (s u : State) (r : Results),
    exec j s = answered s (.done false r) → PaddedWithZeros r → Presents u.inp.req r →
    ∃ w r' bytes, exec i u = answered u (.done w r') ∧ r'.obuf = some bytes ∧ bytes.length = lengthOf k ∧
      ∀ a, a < lengthOf k → bytes[a]? = some (s.inp.req.ibuf.read a))

-- Dispatcher (spec/43_dispatcher.md)

/-- R121: the rejections of decode in their order, and the unpack operation of the nibble when the length is that type's. -/
def Obligations.DecodeSelectsByTheNibble : Prop :=
  decodeOp 0x30 = .ok .decode ∧
  ∀ s : State,
    (s.inp.req.ibufLen.toNat = 0 → exec .decode s = answered s (.error .truncatedBuffer)) ∧
    (1 ≤ s.inp.req.ibufLen.toNat → 8 < typeNibble s.inp.req →
      exec .decode s = answered s (.error .unknownFrameType)) ∧
    (1 ≤ s.inp.req.ibufLen.toNat → typeNibble s.inp.req ≤ 8 →
      s.inp.req.ibufLen.toNat < lengthOf (typeNibble s.inp.req) →
      exec .decode s = answered s (.error .truncatedBuffer)) ∧
    (typeNibble s.inp.req ≤ 8 → lengthOf (typeNibble s.inp.req) < s.inp.req.ibufLen.toNat →
      exec .decode s = answered s (.error .sizeMismatch)) ∧
    (∀ i, unpackOf (typeNibble s.inp.req) = some i → s.inp.req.ibufLen.toNat = lengthOf (typeNibble s.inp.req) →
      exec .decode s = exec i s ∧ ∃ r, exec .decode s = answered s (.done false r)) ∧
    (typeNibble s.inp.req = 0 → s.inp.req.ibufLen.toNat = 3 →
      exec .decode s = answered s (.done false (headerAnd s.inp.req [])))

/-- R122: type 0 is no unknown type: a 3-byte buffer is a header-only packet, a shorter one TruncatedBuffer, a longer one SizeMismatch. -/
def Obligations.DecodeOfNullIsHeaderOnly : Prop :=
  ∀ s : State, typeNibble s.inp.req = 0 →
    (s.inp.req.ibufLen.toNat < 3 → exec .decode s = answered s (.error .truncatedBuffer)) ∧
    (3 < s.inp.req.ibufLen.toNat → exec .decode s = answered s (.error .sizeMismatch)) ∧
    (s.inp.req.ibufLen.toNat = 3 →
      exec .decode s =
        answered s (.done false
          { hdrType := some 0
            hdrFlags := some (BitVec.ofNat 4 ((s.inp.req.ibuf.read 0).toNat % 16))
            hdrTime := some (BitVec.ofNat 16 (memRead s.inp.req.ibuf.read 1 2)) }))

/-- R123: a byte 0 of 0x90 or more is UnknownFrameType, whatever the length (1 or more) and the other bytes; no byte is
TruncatedBuffer. -/
def Obligations.DecodeRejectsUnknownTypes : Prop :=
  ∀ s : State,
    (1 ≤ s.inp.req.ibufLen.toNat → 0x90 ≤ (s.inp.req.ibuf.read 0).toNat →
      exec .decode s = answered s (.error .unknownFrameType)) ∧
    (s.inp.req.ibufLen.toNat = 0 → exec .decode s = answered s (.error .truncatedBuffer))

/-- R124: decode of what pack produced carries flags, time mod 65536 and the fields back, for every kind and every operand value. -/
def Obligations.DecodeInvertsPack : Prop :=
  ∀ k i, packOf k = some i → ∀ s u : State, u.inp.req.wf = true →
    ∃ w r bytes r', exec i s = answered s (.done w r) ∧ r.obuf = some bytes ∧
      exec .decode (u.present (u.inp.req.withBuffer bytes)) =
        answered (u.present (u.inp.req.withBuffer bytes)) (.done false r') ∧
      Carries k s.inp.req r'

/-- R126: decode never gives TypeMismatch; only an unpack operation does. -/
def Obligations.DecodeNeverGivesTypeMismatch : Prop :=
  (∀ s t : State, exec .decode s = .next t → t.status ≠ some .typeMismatch) ∧
  ∀ (i : Instr) (s t : State), exec i s = .next t → t.status = some .typeMismatch → ∃ k, unpackOf k = some i

/-- R127: for a buffer of an assigned kind at least as long as its packet, decode has exactly the response of that kind's unpack. -/
def Obligations.DecodeEqualsTheComposition : Prop :=
  ∀ (s : State) (i : Instr), 1 ≤ s.inp.req.ibufLen.toNat → unpackOf (typeNibble s.inp.req) = some i →
    lengthOf (typeNibble s.inp.req) ≤ s.inp.req.ibufLen.toNat → exec .decode s = exec i s

-- Packets of format FRAME (spec/30_encoding.md section 3)

/-- The model's meaning of the nine FRAME rows (log entry 9): a received packet answers its header and its fields, each in its slot,
16-bit fields sign-extended; an INFO packet answers its buffer and its first terminator. The pair that joins the observation has the
request on the ports, made or not: the model's choice as well (log entry 9). -/
def Obligations.FramesDeliverTheirFields : Prop :=
  ∀ (s : State) (f : Nibble) (t : Half),
    exec (.frameNull f t) s = answered s (.done false { hdrType := some 0, hdrFlags := some f, hdrTime := some t }) ∧
    (∀ p, exec (.frameMotion f t p) s =
      answered s (.done false
        { hdrType := some 1, hdrFlags := some f, hdrTime := some t
          x := [p.accelX, p.accelY, p.accelZ, p.gyroX, p.gyroY, p.gyroZ, p.magX, p.magY, p.magZ] })) ∧
    (∀ p, exec (.frameEnvironmental f t p) s =
      answered s (.done false
        { hdrType := some 2, hdrFlags := some f, hdrTime := some t
          x := [p.temperature, p.pressure, p.humidity, p.altitude] })) ∧
    (∀ p, exec (.frameAirQuality f t p) s =
      answered s (.done false
        { hdrType := some 3, hdrFlags := some f, hdrTime := some t
          x := [BitVec.ofInt 32 p.co2.toInt, BitVec.ofInt 32 p.tvoc.toInt] })) ∧
    (∀ p, exec (.frameSecondaryAccel f t p) s =
      answered s (.done false
        { hdrType := some 4, hdrFlags := some f, hdrTime := some t, x := [p.accelX, p.accelY, p.accelZ] })) ∧
    (∀ p, exec (.frameAltitude f t p) s =
      answered s (.done false { hdrType := some 5, hdrFlags := some f, hdrTime := some t, x := [p.altitude] })) ∧
    (∀ p, exec (.frameOrientation f t p) s =
      answered s (.done false
        { hdrType := some 6, hdrFlags := some f, hdrTime := some t
          x := [BitVec.ofInt 32 p.pitch.toInt, BitVec.ofInt 32 p.roll.toInt, BitVec.ofInt 32 p.yaw.toInt] })) ∧
    exec (.frameCommand f t) s = answered s (.done false { hdrType := some 7, hdrFlags := some f, hdrTime := some t }) ∧
    (∀ buf : List Byte, buf.length = 300 →
      ∃ n, n ≤ 300 ∧ (∀ j, j < n → buf[j]? ≠ some 0) ∧ (n < 300 → buf[n]? = some 0) ∧
        exec (.frameInfo f t buf) s =
          answered s (.done false
            { hdrType := some 8, hdrFlags := some f, hdrTime := some t
              infoLen := some (BitVec.ofNat 9 n), infoBuf := some buf }))

/-- R57 to R63 (and the byte range of R64): the bytes of a packet, field by field at the indices of its layout table. -/
def Obligations.FramesFollowTheirLayouts : Prop :=
  ∀ (f : Nibble) (t : Half),
    (∃ b, encode (.frameNull f t) = .packet b ∧ b.length = 3 ∧
      FieldAt b 0 1 f.toNat ∧ FieldAt b 1 2 t.toNat) ∧
    (∀ p, ∃ b, encode (.frameMotion f t p) = .packet b ∧ b.length = 39 ∧
      FieldAt b 0 1 (16 + f.toNat) ∧ FieldAt b 1 2 t.toNat ∧
      FieldAt b 3 4 p.accelX.toNat ∧ FieldAt b 7 4 p.accelY.toNat ∧ FieldAt b 11 4 p.accelZ.toNat ∧
      FieldAt b 15 4 p.gyroX.toNat ∧ FieldAt b 19 4 p.gyroY.toNat ∧ FieldAt b 23 4 p.gyroZ.toNat ∧
      FieldAt b 27 4 p.magX.toNat ∧ FieldAt b 31 4 p.magY.toNat ∧ FieldAt b 35 4 p.magZ.toNat) ∧
    (∀ p, ∃ b, encode (.frameEnvironmental f t p) = .packet b ∧ b.length = 19 ∧
      FieldAt b 0 1 (32 + f.toNat) ∧ FieldAt b 1 2 t.toNat ∧
      FieldAt b 3 4 p.temperature.toNat ∧ FieldAt b 7 4 p.pressure.toNat ∧ FieldAt b 11 4 p.humidity.toNat ∧
      FieldAt b 15 4 p.altitude.toNat) ∧
    (∀ p, ∃ b, encode (.frameAirQuality f t p) = .packet b ∧ b.length = 7 ∧
      FieldAt b 0 1 (48 + f.toNat) ∧ FieldAt b 1 2 t.toNat ∧ FieldAt b 3 2 p.co2.toNat ∧ FieldAt b 5 2 p.tvoc.toNat) ∧
    (∀ p, ∃ b, encode (.frameSecondaryAccel f t p) = .packet b ∧ b.length = 15 ∧
      FieldAt b 0 1 (64 + f.toNat) ∧ FieldAt b 1 2 t.toNat ∧
      FieldAt b 3 4 p.accelX.toNat ∧ FieldAt b 7 4 p.accelY.toNat ∧ FieldAt b 11 4 p.accelZ.toNat) ∧
    (∀ p, ∃ b, encode (.frameAltitude f t p) = .packet b ∧ b.length = 7 ∧
      FieldAt b 0 1 (80 + f.toNat) ∧ FieldAt b 1 2 t.toNat ∧ FieldAt b 3 4 p.altitude.toNat) ∧
    (∀ p, ∃ b, encode (.frameOrientation f t p) = .packet b ∧ b.length = 9 ∧
      FieldAt b 0 1 (96 + f.toNat) ∧ FieldAt b 1 2 t.toNat ∧
      FieldAt b 3 2 p.pitch.toNat ∧ FieldAt b 5 2 p.roll.toNat ∧ FieldAt b 7 2 p.yaw.toNat) ∧
    (∃ b, encode (.frameCommand f t) = .packet b ∧ b.length = 3 ∧
      FieldAt b 0 1 (112 + f.toNat) ∧ FieldAt b 1 2 t.toNat) ∧
    (∀ buf : List Byte, buf.length = 300 → ∃ b, encode (.frameInfo f t buf) = .packet b ∧ b.length = 303 ∧
      FieldAt b 0 1 (128 + f.toNat) ∧ FieldAt b 1 2 t.toNat ∧ ∀ j, j < 300 → b[3 + j]? = buf[j]?)

-- Encodings

/-- Decoding an encoded well-formed instruction gives it back: every operation code, and every packet with every field at every value. -/
def Obligations.DecodeInvertsEncode : Prop := ∀ i : Instr, i.wf = true → decode (encode i) = .ok i

/-- What decodes is well-formed, and encodes to the very bits it was decoded from: no bit of an encoding is dropped. -/
def Obligations.EncodeInvertsDecode : Prop := ∀ (e : Encoding) (i : Instr), decode e = .ok i → i.wf = true ∧ encode i = e

/-- The twenty codes of R71, written out in binary, and three whole packets (COMMAND, NULL and ALTITUDE). -/
def Obligations.CodesDecodeAsTheTableSays : Prop :=
  [0b000000#6, 0b000001#6, 0b000010#6, 0b010001#6, 0b010010#6, 0b010011#6, 0b010100#6, 0b010101#6, 0b010110#6, 0b010111#6,
    0b011000#6, 0b100001#6, 0b100010#6, 0b100011#6, 0b100100#6, 0b100101#6, 0b100110#6, 0b100111#6, 0b101000#6,
    0b110000#6].map (fun c => (decodeOp c).toOption) =
    [some .encodeHeader, some .decodeHeader, some .typeOf, some .packMotion, some .packEnvironmental, some .packAirQuality,
      some .packSecondaryAccel, some .packAltitude, some .packOrientation, some .packCommand, some .packInfo,
      some .unpackMotion, some .unpackEnvironmental, some .unpackAirQuality, some .unpackSecondaryAccel,
      some .unpackAltitude, some .unpackOrientation, some .unpackCommand, some .unpackInfo, some .decode] ∧
  (decode (.packet [0b01110000, 0b00000000, 0b00111100])).toOption = some (.frameCommand 0 60) ∧
  (decode (.packet [0b00001010, 0b00010010, 0b00110100])).toOption = some (.frameNull 10 4660) ∧
  (decode (.packet [0b01011111, 0b00010001, 0b01110000, 0b11111111, 0b11111110, 0b00011101, 0b11000000])).toOption =
    some (.frameAltitude 15 4464 ⟨0xFFFE1DC0⟩)

-- Errors (spec/60_exceptions.md)

/-- R138: which operation raises TruncatedBuffer, and exactly when; nothing is recorded with it. -/
def Obligations.TruncatedBufferIsRaisedExactly : Prop :=
  ∀ c i, (c, i) ∈ operations → ∀ s t : State, exec i s = .next t →
    (t.status = some .truncatedBuffer ↔
      (i = .decodeHeader ∧ s.inp.req.ibufLen.toNat < 3) ∨ (i = .typeOf ∧ s.inp.req.ibufLen.toNat = 0) ∨
      (i = .decode ∧ (s.inp.req.ibufLen.toNat = 0 ∨
        (typeNibble s.inp.req ≤ 8 ∧ s.inp.req.ibufLen.toNat < lengthOf (typeNibble s.inp.req))))) ∧
    (t.status = some .truncatedBuffer → t.results = none)

/-- R139: which operation raises SizeMismatch, and exactly when; nothing is recorded with it. -/
def Obligations.SizeMismatchIsRaisedExactly : Prop :=
  ∀ c i, (c, i) ∈ operations → ∀ s t : State, exec i s = .next t →
    (t.status = some .sizeMismatch ↔
      (∃ k, unpackOf k = some i ∧ s.inp.req.ibufLen.toNat ≠ lengthOf k) ∨
      (i = .decode ∧ typeNibble s.inp.req ≤ 8 ∧ lengthOf (typeNibble s.inp.req) < s.inp.req.ibufLen.toNat)) ∧
    (t.status = some .sizeMismatch → t.results = none)

/-- R140: UnknownFrameType comes from decode only, exactly when there is a byte 0 and its nibble is 9 to 15. -/
def Obligations.UnknownFrameTypeIsRaisedExactly : Prop :=
  ∀ c i, (c, i) ∈ operations → ∀ s t : State, exec i s = .next t →
    (t.status = some .unknownFrameType ↔
      i = .decode ∧ 1 ≤ s.inp.req.ibufLen.toNat ∧ 9 ≤ typeNibble s.inp.req) ∧
    (t.status = some .unknownFrameType → t.results = none)

/-- R141: TypeMismatch comes from an unpack operation only, exactly when the length is right and the nibble is not the kind's. -/
def Obligations.TypeMismatchIsRaisedExactly : Prop :=
  ∀ c i, (c, i) ∈ operations → ∀ s t : State, exec i s = .next t →
    (t.status = some .typeMismatch ↔
      ∃ k, unpackOf k = some i ∧ s.inp.req.ibufLen.toNat = lengthOf k ∧ typeNibble s.inp.req ≠ k) ∧
    (t.status = some .typeMismatch → t.results = none)

/-- R142: InvalidType comes from encode_header only, exactly when `type_in > 15`. -/
def Obligations.InvalidTypeIsRaisedExactly : Prop :=
  ∀ c i, (c, i) ∈ operations → ∀ s t : State, exec i s = .next t →
    (t.status = some .invalidType ↔ i = .encodeHeader ∧ 15 < s.inp.req.typeIn.toNat) ∧
    (t.status = some .invalidType → t.results = none)

/-- R143: the warning comes from pack_info only, exactly when `msg_len > 299`, and the 303 bytes stand beside it. -/
def Obligations.MessageTruncatedIsAWarning : Prop :=
  ∀ c i, (c, i) ∈ operations → ∀ s t : State, exec i s = .next t →
    (t.status = some .messageTruncated ↔ i = .packInfo ∧ 299 < s.inp.req.msgLen.toNat) ∧
    (t.status = some .messageTruncated →
      ∃ bytes, bytes.length = 303 ∧ t.results = some (produced 303 bytes) ∧ HeaderOf bytes 8 s.inp.req ∧
        (∀ j, j < 299 → bytes[3 + j]? = some (s.inp.req.msg.read j)) ∧ bytes[302]? = some 0)

/-- R73: the codes of the eight statuses, none above 7, and results exactly beside OK and the warning. R146: an operation gives the
statuses of its row and no other, and each of them for some request. -/
def Obligations.StatusesFollowTheTable : Prop :=
  [Status.ok, .truncatedBuffer, .sizeMismatch, .unknownFrameType, .typeMismatch, .messageTruncated, .invalidType,
    .illegalOp].map Status.code = [0, 1, 2, 3, 4, 5, 6, 7] ∧
  (∀ st : Status, st.code.toNat ≤ 7) ∧
  (∀ r : Response, r.results.isSome = true ↔ r.status = .ok ∨ r.status = .messageTruncated) ∧
  ∀ c i, (c, i) ∈ operations →
    (∀ s t : State, exec i s = .next t → ∃ st, t.status = some st ∧ st ∈ statuses i) ∧
    ∀ st ∈ statuses i, ∃ s t : State, exec i s = .next t ∧ t.status = some st

-- What every instruction leaves (spec/10_state.md R13, spec/20_memory.md R31, R48)

/-- Every instruction answers a next state, from every state; it leaves every input port and every byte of ibuf and msg as they were,
and adds exactly the pair of the request on the ports and the response to the observation (for a FRAME packet, which no request makes,
log entry 9). -/
def Obligations.InstructionsChangeTheResponseOnly : Prop :=
  ∀ (i : Instr) (s : State), ∃ t r, exec i s = .next t ∧ t.rsp = some r ∧ t.trace = s.trace ++ [(s.inp.req, r)] ∧
    t.inp = s.inp ∧
    (∀ a, t.inp.req.ibuf.read a = s.inp.req.ibuf.read a) ∧ ∀ a, t.inp.req.msg.read a = s.inp.req.msg.read a

/-- R25, R19, R17, R18: two requests that agree on the ports, and the parts of ports, that the operation reads get one response. -/
def Obligations.UnreadPortsAreIgnored : Prop :=
  ∀ (i : Instr) (s u t v : State), SameOperands i s.inp.req u.inp.req → exec i s = .next t → exec i u = .next v →
    t.rsp = v.rsp

/-- R49: no operation reads ibuf at or above 303; type_of reads index 0 only and decode_header 0 to 2 only; every unpack operation needs
its own length, at most 303, and is SizeMismatch otherwise; decode raises an error or is an unpack operation, or the header-only
NULL packet of 3 bytes. -/
def Obligations.LongBuffersAreNotRead : Prop :=
  (∀ (i : Instr) (s u t v : State),
    (∀ a, a < 303 → s.inp.req.ibuf.read a = u.inp.req.ibuf.read a) →
    u.inp.req = { s.inp.req with ibuf := u.inp.req.ibuf } →
    exec i s = .next t → exec i u = .next v → t.rsp = v.rsp) ∧
  (∀ s u t v : State, 1 ≤ s.inp.req.ibufLen.toNat → 1 ≤ u.inp.req.ibufLen.toNat →
    s.inp.req.ibuf.read 0 = u.inp.req.ibuf.read 0 →
    exec .typeOf s = .next t → exec .typeOf u = .next v → t.rsp = v.rsp ∧ t.status = some .ok) ∧
  (∀ s u t v : State, 3 ≤ s.inp.req.ibufLen.toNat → 3 ≤ u.inp.req.ibufLen.toNat →
    (∀ a, a < 3 → s.inp.req.ibuf.read a = u.inp.req.ibuf.read a) →
    exec .decodeHeader s = .next t → exec .decodeHeader u = .next v → t.rsp = v.rsp ∧ t.status = some .ok) ∧
  ∀ s : State,
    (∀ k i, unpackOf k = some i → lengthOf k ≤ 303 ∧
      (s.inp.req.ibufLen.toNat ≠ lengthOf k → exec i s = answered s (.error .sizeMismatch))) ∧
    ((∃ e, exec .decode s = answered s (.error e)) ∨
      (∃ k i, unpackOf k = some i ∧ s.inp.req.ibufLen.toNat = lengthOf k ∧ exec .decode s = exec i s) ∨
      (typeNibble s.inp.req = 0 ∧ s.inp.req.ibufLen.toNat = 3))

-- Steps (spec/70_reset_and_hazards.md)

/-- A step with a held request whose code decodes runs exactly the decoded operation, then no request is presented (log entry 4). -/
def Obligations.StepRunsTheDecodedOperation : Prop :=
  ∀ (s : State) (i : Instr), Serving s → decodeOp s.inp.req.op = .ok i →
    step s =
      match exec i s with
      | .next t =>
        .next { t with inp := { t.inp with rst := false, reqValid := false, held := true } }
      | .fault r => .fault r
      | .refused r => .refused r

/-- A step with a held `decode` request runs exactly the packet in the buffer, whatever the bytes beyond it are (log entry 9). -/
def Obligations.StepRunsTheReceivedPacket : Prop :=
  ∀ (s : State) (i : Instr) (bytes : List Byte), Serving s → s.inp.req.op = 0x30 → i.wf = true →
    encode i = .packet bytes → s.inp.req.ibufLen.toNat = bytes.length →
    (∀ a, a < bytes.length → bytes[a]? = some (s.inp.req.ibuf.read a)) →
    exec .decode s = exec i s ∧ ∃ t v, step s = .next t ∧ exec i s = .next v ∧ t.rsp = v.rsp ∧ t.trace = v.trace

/-- R72, R144: each of the 44 reserved codes gets the response IllegalOp and no result, before any operand is looked at. -/
def Obligations.ReservedCodesAreIllegal : Prop :=
  (∀ s : State, Serving s → (∀ p ∈ operations, p.1 ≠ s.inp.req.op) →
    ∃ t, step s = .next t ∧ t.rsp = some (.error .illegalOp) ∧ t.status = some .illegalOp ∧ t.results = none ∧
      t.trace = s.trace ++ [(s.inp.req, .error .illegalOp)]) ∧
  ((List.range 64).filter fun c => operations.all fun p => decide (p.1 ≠ BitVec.ofNat 6 c)).length = 44

/-- R158: every request gets exactly one response, with a status, and the response is a function of the request. -/
def Obligations.EveryRequestGetsOneResponse : Prop :=
  ∃ f : Request → Response, ∀ s : State, Serving s →
    ∃ t, step s = .next t ∧ t.rspValid = true ∧ t.rsp = some (f s.inp.req) ∧ t.status = some (f s.inp.req).status ∧
      t.results = (f s.inp.req).results ∧ t.trace = s.trace ++ [(s.inp.req, f s.inp.req)]

/-- R155 and the model's own conventions (log entries 4 to 7, 18): while `rst` is asserted, or with no request presented, there is no
response and nothing joins the observation; asserting `rst` withdraws a response, and no step leaves one beside an asserted `rst`; a
request the caller does not hold stable is refused by name. -/
def Obligations.StepsWithoutARequestGiveNoResponse : Prop :=
  (∀ s : State,
    (s.inp.rst = true ∨ s.inp.reqValid = false →
      ∃ t, step s = .next t ∧ t.rspValid = false ∧ t.status = none ∧ t.results = none ∧ t.trace = s.trace) ∧
    (s.inp.rst = false → s.inp.reqValid = true → s.inp.held = false → step s = .refused .requestNotHeld)) ∧
  (∀ (s : State) (d : Drive), d.rst = true → (s.drive d).rspValid = false) ∧
  ∀ s t : State, step s = .next t → t.rspValid = true → t.inp.rst = false

/-- R29, with log entries 3 and 5 (DEDUCED): after reset and while reset is asserted there is no response, nor in a step without a
request (log entry 5); no port has a value while there is none (log entry 3); and an operation issued after reset answers as the
same operation issued at any other time. -/
def Obligations.ResetLeavesNothingToDependOn : Prop :=
  State.reset.rspValid = false ∧
  (∀ s : State, s.inp.rst = true ∨ s.inp.reqValid = false → ∃ t, step s = .next t ∧ t.rspValid = false) ∧
  (∀ s : State, s.rspValid = false → s.status = none ∧ s.results = none) ∧
  ∀ (s : State) (q : Request), ∃ t v, step (State.reset.present q) = .next t ∧ step (s.present q) = .next v ∧ t.rsp = v.rsp

/-- R13, R159: the response is a function of the request alone; what came before does not enter it. -/
def Obligations.ResponseDependsOnTheRequestOnly : Prop :=
  ∀ s u : State, Serving s → Serving u → s.inp.req = u.inp.req →
    ∃ t v r, step s = .next t ∧ step u = .next v ∧ t.rsp = some r ∧ v.rsp = some r

/-- R163, R30: a run over any list of drives gives one response to each request that is served, in turn, and none to what is abandoned
under `rst` or to an interval without a request; the response on the ports at the end is that of the last drive, if it was served. -/
def Obligations.ARunAnswersEveryRequestInTurn : Prop :=
  ∀ (ds : List Drive) (s : State), (∀ d ∈ ds, d.serves = true → d.held = true) →
    ∃ t rs, runOn ds s = .next t ∧ rs.length = (requestsOf ds).length ∧
      t.trace = s.trace ++ (requestsOf ds).zip rs ∧ (∀ p ∈ (requestsOf ds).zip rs, AnswersFresh p.1 p.2) ∧
      ∀ d, ds.getLast? = some d → t.rsp = if d.serves then rs.getLast? else none

-- Invariants

/-- Every step keeps the ports canonical: only wires that exist are driven, each byte space in its one form; and so does the callers'
driving canonical ports. -/
def Obligations.StepKeepsThePortsCanonical : Prop :=
  (∀ s t : State, PortsCanonical s → step s = .next t → PortsCanonical t) ∧
  ∀ (s : State) (d : Drive), PortsCanonical s → d.req.wf = true → PortsCanonical (s.drive d)

/-- Every step keeps the responses in shape (R20 to R23, R143). -/
def Obligations.StepKeepsTheResponsesInShape : Prop :=
  ∀ s t : State, ResponsesFit s → step s = .next t → ResponsesFit t

/-- Every step keeps the observation free of history (R13, R159): each response in it is the one its request gets right after reset. -/
def Obligations.StepKeepsTheObservationHistoryFree : Prop :=
  ∀ s t : State, HistoryFree s → step s = .next t → HistoryFree t

/-- Every step keeps the response on the ports the last one observed. -/
def Obligations.StepKeepsTheResponseTheLastObserved : Prop :=
  ∀ s t : State, ResponseIsLast s → step s = .next t → ResponseIsLast t

/-- The state after reset meets the four invariants. -/
def Obligations.ResetMeetsTheInvariants : Prop :=
  PortsCanonical State.reset ∧ ResponsesFit State.reset ∧ HistoryFree State.reset ∧ ResponseIsLast State.reset
end

