-- ==== Sys2Proof/Laws/Config.lean ====
section
/-!
SUPPORT. The parameters' values, for simp and omega.
-/

namespace Sys2Proof

@[simp] theorem Config.hdrSize_eq : Config.hdrSize = 3 := rfl
@[simp] theorem Config.infoSize_eq : Config.infoSize = 300 := rfl
@[simp] theorem Config.msgCap_eq : Config.msgCap = 299 := rfl
@[simp] theorem Config.bufMax_eq : Config.bufMax = 303 := rfl
@[simp] theorem Config.msgWires_eq : Config.msgWires = 299 := rfl
@[simp] theorem Config.terminator_eq : Config.terminator = 0 := rfl

end Sys2Proof
end

