-- ==== Sys2Proof/Laws/Bytes.lean ====
section
/-!
SUPPORT. Bytes, nibbles and big-endian fields: the readers and the writers are each other's inverse, and they compute the sums and
shifts of spec/20_memory.md R36 and R37.
-/

namespace Sys2Proof

@[simp] theorem put16_length (v : Half) : (put16 v).length = 2 := rfl
@[simp] theorem put32_length (v : Word) : (put32 v).length = 4 := rfl
@[simp] theorem headerBytes_length (t f : Nibble) (time : Half) : (headerBytes t f time).length = 3 := rfl

/-- Concatenation is the sum with the upper part scaled (R10). -/
theorem append_toNat {m n : Nat} (a : BitVec m) (b : BitVec n) : (a ++ b).toNat = a.toNat * 2 ^ n + b.toNat := by
  rw [BitVec.toNat_append, ← Nat.shiftLeft_add_eq_or_of_lt b.isLt, Nat.shiftLeft_eq]

/-- A slice of `n` bits is a division and a remainder (R10). -/
theorem slice_toNat {w : Nat} (v : BitVec w) (lo n : Nat) : (v.extractLsb' lo n).toNat = v.toNat / 2 ^ lo % 2 ^ n := by
  rw [BitVec.extractLsb'_toNat, Nat.shiftRight_eq_div_pow]

theorem hiNibble_toNat (b : Byte) : (hiNibble b).toNat = b.toNat / 16 := by
  have := slice_toNat b 4 4
  have := b.isLt
  unfold hiNibble
  omega

theorem loNibble_toNat (b : Byte) : (loNibble b).toNat = b.toNat % 16 := by
  have := slice_toNat b 0 4
  unfold loNibble
  omega

/-- A byte of two nibbles. -/
theorem nibbles_toNat (a b : Nibble) : BitVec.toNat (w := 8) (a ++ b) = a.toNat * 16 + b.toNat := append_toNat a b

/-- A half of two bytes. -/
theorem bytes_toNat (a b : Byte) : BitVec.toNat (w := 16) (a ++ b) = a.toNat * 256 + b.toNat := append_toNat a b

/-- A word of four bytes. -/
theorem word_toNat (a b c d : Byte) :
    BitVec.toNat (w := 32) ((a ++ b) ++ (c ++ d)) =
      a.toNat * 16777216 + b.toNat * 65536 + c.toNat * 256 + d.toNat := by
  have h : BitVec.toNat (w := 32) ((a ++ b) ++ (c ++ d)) = _ := append_toNat (a ++ b) (c ++ d)
  rw [h, append_toNat, append_toNat]
  omega

@[simp] theorem hiNibble_append (a b : Nibble) : hiNibble (a ++ b) = a := by
  apply BitVec.eq_of_toNat_eq
  have := b.isLt
  rw [hiNibble_toNat, nibbles_toNat]
  omega

@[simp] theorem loNibble_append (a b : Nibble) : loNibble (a ++ b) = b := by
  apply BitVec.eq_of_toNat_eq
  have := b.isLt
  rw [loNibble_toNat, nibbles_toNat]
  omega

@[simp] theorem nibbles_append (b : Byte) : hiNibble b ++ loNibble b = b := by
  apply BitVec.eq_of_toNat_eq
  have h := nibbles_toNat (hiNibble b) (loNibble b)
  rw [hiNibble_toNat, loNibble_toNat] at h
  exact h.trans (by omega)

/-- Reading what `put16` wrote. -/
theorem get16_put16 (v : Half) : v.extractLsb' 8 8 ++ v.extractLsb' 0 8 = v := by
  apply BitVec.eq_of_toNat_eq
  have h := bytes_toNat (v.extractLsb' 8 8) (v.extractLsb' 0 8)
  have := v.isLt
  rw [slice_toNat, slice_toNat] at h
  exact h.trans (by omega)

/-- Reading what `put32` wrote. -/
theorem get32_put32 (v : Word) :
    (v.extractLsb' 24 8 ++ v.extractLsb' 16 8) ++ (v.extractLsb' 8 8 ++ v.extractLsb' 0 8) = v := by
  apply BitVec.eq_of_toNat_eq
  have h := word_toNat (v.extractLsb' 24 8) (v.extractLsb' 16 8) (v.extractLsb' 8 8) (v.extractLsb' 0 8)
  have := v.isLt
  rw [slice_toNat, slice_toNat, slice_toNat, slice_toNat] at h
  exact h.trans (by omega)

/-- Writing what `get16` read. -/
theorem put16_append (a b : Byte) : put16 (a ++ b) = [a, b] := by
  have h := bytes_toNat a b
  have := a.isLt
  have := b.isLt
  have e1 : BitVec.extractLsb' (n := 16) 8 8 (a ++ b) = a := by
    apply BitVec.eq_of_toNat_eq; rw [slice_toNat, h]; omega
  have e2 : BitVec.extractLsb' (n := 16) 0 8 (a ++ b) = b := by
    apply BitVec.eq_of_toNat_eq; rw [slice_toNat, h]; omega
  unfold put16
  rw [e1, e2]

/-- Writing what `get32` read. -/
theorem put32_append (a b c d : Byte) : put32 ((a ++ b) ++ (c ++ d)) = [a, b, c, d] := by
  have h := word_toNat a b c d
  have := a.isLt
  have := b.isLt
  have := c.isLt
  have := d.isLt
  have e1 : BitVec.extractLsb' (n := 32) 24 8 ((a ++ b) ++ (c ++ d)) = a := by
    apply BitVec.eq_of_toNat_eq; rw [slice_toNat, h]; omega
  have e2 : BitVec.extractLsb' (n := 32) 16 8 ((a ++ b) ++ (c ++ d)) = b := by
    apply BitVec.eq_of_toNat_eq; rw [slice_toNat, h]; omega
  have e3 : BitVec.extractLsb' (n := 32) 8 8 ((a ++ b) ++ (c ++ d)) = c := by
    apply BitVec.eq_of_toNat_eq; rw [slice_toNat, h]; omega
  have e4 : BitVec.extractLsb' (n := 32) 0 8 ((a ++ b) ++ (c ++ d)) = d := by
    apply BitVec.eq_of_toNat_eq; rw [slice_toNat, h]; omega
  unfold put32
  rw [e1, e2, e3, e4]

theorem put16_get16 (rd : Nat → Byte) (a : Nat) : put16 (get16 rd a) = [rd a, rd (a + 1)] :=
  put16_append _ _

theorem put32_get32 (rd : Nat → Byte) (a : Nat) :
    put32 (get32 rd a) = [rd a, rd (a + 1), rd (a + 2), rd (a + 3)] :=
  put32_append _ _ _ _

/-- `get_u16` is the sum of R36. -/
theorem get16_toNat (rd : Nat → Byte) (a : Nat) :
    (get16 rd a).toNat = (rd a).toNat * 256 + (rd (a + 1)).toNat :=
  bytes_toNat _ _

/-- `get_i32` before its sign is taken is the sum of R36. -/
theorem get32_toNat (rd : Nat → Byte) (a : Nat) :
    (get32 rd a).toNat =
      (rd a).toNat * 16777216 + (rd (a + 1)).toNat * 65536 + (rd (a + 2)).toNat * 256 + (rd (a + 3)).toNat :=
  word_toNat _ _ _ _

/-- The registry's two directions agree. -/
@[simp] theorem FrameType.ofNibble_nibble (t : FrameType) : FrameType.ofNibble t.nibble = some t := by
  cases t <;> rfl

theorem FrameType.nibble_of_ofNibble {n : Nibble} {t : FrameType} (h : FrameType.ofNibble n = some t) :
    t.nibble = n := by
  revert h; revert t; revert n; decide

theorem FrameType.ofNibble_none {n : Nibble} : FrameType.ofNibble n = none ↔ 8 < n.toNat := by
  revert n; decide

theorem FrameType.nibble_injective {t u : FrameType} (h : t.nibble = u.nibble) : t = u := by
  have := congrArg FrameType.ofNibble h
  simpa using this

theorem FrameType.three_le_len (t : FrameType) : 3 ≤ t.len := by
  simp [FrameType.len]

theorem FrameType.len_le (t : FrameType) : t.len ≤ 303 := by
  cases t <;> decide

end Sys2Proof
end

