-- ==== Sys2Proof/Laws/State.lean ====
section
/-!
SUPPORT. One lemma per field per update of the state, so that no later proof unfolds a record update.
-/

namespace Sys2Proof.Machine

-- State.respond

@[simp] theorem State.respond_inp (r : Response) (s : State) : (s.respond r).inp = s.inp := rfl
@[simp] theorem State.respond_rsp (r : Response) (s : State) : (s.respond r).rsp = some r := rfl
@[simp] theorem State.respond_trace (r : Response) (s : State) :
    (s.respond r).trace = s.trace ++ [(s.inp.req, r)] := rfl
@[simp] theorem State.respond_rspValid (r : Response) (s : State) : (s.respond r).rspValid = true := rfl
@[simp] theorem State.respond_status (r : Response) (s : State) : (s.respond r).status = some r.status := rfl
@[simp] theorem State.respond_results (r : Response) (s : State) : (s.respond r).results = r.results := rfl

-- State.noResponse

@[simp] theorem State.noResponse_inp (s : State) : s.noResponse.inp = s.inp := rfl
@[simp] theorem State.noResponse_rsp (s : State) : s.noResponse.rsp = none := rfl
@[simp] theorem State.noResponse_trace (s : State) : s.noResponse.trace = s.trace := rfl

-- State.advance

@[simp] theorem State.advance_inp (s : State) : s.advance.inp = s.inp.quiet := rfl
@[simp] theorem State.advance_rsp (s : State) : s.advance.rsp = s.rsp := rfl
@[simp] theorem State.advance_trace (s : State) : s.advance.trace = s.trace := rfl
@[simp] theorem State.advance_rspValid (s : State) : s.advance.rspValid = s.rspValid := rfl

-- State.drive

@[simp] theorem State.drive_inp (d : Drive) (s : State) : (s.drive d).inp = d := rfl
@[simp] theorem State.drive_rsp (d : Drive) (s : State) : (s.drive d).rsp = if d.rst then none else s.rsp := rfl
@[simp] theorem State.drive_trace (d : Drive) (s : State) : (s.drive d).trace = s.trace := rfl

-- Drive.quiet

@[simp] theorem Drive.quiet_rst (d : Drive) : d.quiet.rst = false := rfl
@[simp] theorem Drive.quiet_reqValid (d : Drive) : d.quiet.reqValid = false := rfl
@[simp] theorem Drive.quiet_held (d : Drive) : d.quiet.held = true := rfl
@[simp] theorem Drive.quiet_req (d : Drive) : d.quiet.req = d.req := rfl

-- State.present

@[simp] theorem State.present_req (q : Request) (s : State) : (s.present q).inp.req = q := rfl
@[simp] theorem State.present_rst (q : Request) (s : State) : (s.present q).inp.rst = false := rfl
@[simp] theorem State.present_reqValid (q : Request) (s : State) : (s.present q).inp.reqValid = true := rfl
@[simp] theorem State.present_held (q : Request) (s : State) : (s.present q).inp.held = true := rfl
@[simp] theorem State.present_rsp (q : Request) (s : State) : (s.present q).rsp = s.rsp := rfl
@[simp] theorem State.present_trace (q : Request) (s : State) : (s.present q).trace = s.trace := rfl

-- Request.withBuffer

@[simp] theorem Request.withBuffer_op (q : Request) (b : List Byte) : (q.withBuffer b).op = q.op := rfl
@[simp] theorem Request.withBuffer_typeIn (q : Request) (b : List Byte) : (q.withBuffer b).typeIn = q.typeIn := rfl
@[simp] theorem Request.withBuffer_flagsIn (q : Request) (b : List Byte) : (q.withBuffer b).flagsIn = q.flagsIn := rfl
@[simp] theorem Request.withBuffer_timeIn (q : Request) (b : List Byte) : (q.withBuffer b).timeIn = q.timeIn := rfl
@[simp] theorem Request.withBuffer_x (q : Request) (b : List Byte) : (q.withBuffer b).x = q.x := rfl
@[simp] theorem Request.withBuffer_msgLen (q : Request) (b : List Byte) : (q.withBuffer b).msgLen = q.msgLen := rfl
@[simp] theorem Request.withBuffer_msg (q : Request) (b : List Byte) : (q.withBuffer b).msg = q.msg := rfl
@[simp] theorem Request.withBuffer_ibufLen (q : Request) (b : List Byte) :
    (q.withBuffer b).ibufLen = BitVec.ofNat 16 b.length := rfl
@[simp] theorem Request.withBuffer_ibuf (q : Request) (b : List Byte) :
    (q.withBuffer b).ibuf = Memory.load q.ibuf 0 (b.take Config.bufMax) := rfl

-- Out.map

@[simp] theorem Out.map_next (f : State → State) (s : State) : Out.map f (.next s) = .next (f s) := rfl
@[simp] theorem Out.map_fault (f : State → State) (r : Fault) : Out.map f (.fault r) = .fault r := rfl
@[simp] theorem Out.map_refused (f : State → State) (r : Refusal) : Out.map f (.refused r) = .refused r := rfl

end Sys2Proof.Machine
end

