-- ==== Sys2Proof/Laws/Ops.lean ====
section
/-!
SUPPORT. What each shared operation can do, said once: the lengths of packets, the outcomes of the packet decoder, and the answers of
raise, complete, deliver, pack, unpack and decode.
-/

namespace Sys2Proof

@[simp] theorem Payload.bytes_length_null : (Payload.bytes .null).length = FrameType.null.size := rfl
@[simp] theorem Payload.bytes_length_motion (p : Motion) :
    (Payload.bytes (.motion p)).length = FrameType.motion.size := rfl
@[simp] theorem Payload.bytes_length_environmental (p : Environmental) :
    (Payload.bytes (.environmental p)).length = FrameType.environmental.size := rfl
@[simp] theorem Payload.bytes_length_airQuality (p : AirQuality) :
    (Payload.bytes (.airQuality p)).length = FrameType.airQuality.size := rfl
@[simp] theorem Payload.bytes_length_secondaryAccel (p : SecondaryAccel) :
    (Payload.bytes (.secondaryAccel p)).length = FrameType.secondaryAccel.size := rfl
@[simp] theorem Payload.bytes_length_altitude (p : Altitude) :
    (Payload.bytes (.altitude p)).length = FrameType.altitude.size := rfl
@[simp] theorem Payload.bytes_length_orientation (p : Orientation) :
    (Payload.bytes (.orientation p)).length = FrameType.orientation.size := rfl
@[simp] theorem Payload.bytes_length_command : (Payload.bytes .command).length = FrameType.command.size := rfl

/-- A well-formed payload has its registry size (R54). -/
theorem Payload.bytes_length {p : Payload} (h : p.wf = true) : p.bytes.length = p.type.size := by
  cases p with
  | info buf => simpa [Payload.wf, Payload.bytes, Payload.type, FrameType.size] using h
  | _ => rfl

/-- A packet's total wire size (R51). -/
theorem Packet.bytes_length {p : Packet} (h : p.payload.wf = true) : p.bytes.length = p.payload.type.len := by
  simp [Packet.bytes, FrameType.len, Payload.bytes_length h]

/-- A packet read from a buffer has the type it was read as. -/
@[simp] theorem Payload.read_type (t : FrameType) (rd : Nat → Byte) : (Payload.read t rd).type = t := by
  cases t <;> rfl

/-- A payload read from a buffer is well-formed. -/
theorem Payload.read_wf (t : FrameType) (rd : Nat → Byte) : (Payload.read t rd).wf = true := by
  cases t with
  | info => simp [Payload.read, Payload.wf]
  | _ => rfl

/-- A packet depends on the bytes below its length alone (R49). -/
theorem Packet.read_congr {t : FrameType} {rd rd' : Nat → Byte} (h : ∀ a, a < t.len → rd a = rd' a) :
    Packet.read t rd = Packet.read t rd' := by
  have h3 := t.three_le_len
  have hp : Payload.read t rd = Payload.read t rd' := by
    cases t with
    | info =>
      simp only [Payload.read]
      congr 1
      apply List.map_congr_left
      intro j hj
      simp at hj
      exact h _ (by show _ < 303; omega)
    | _ =>
      simp only [Payload.read, get32, get16]
      try simp only [FrameType.len, FrameType.size, Config.hdrSize_eq] at h
      try simp (disch := omega) only [h]
  simp only [Packet.read, get16]
  rw [hp, h 0 (by omega), h 1 (by omega), h 2 (by omega)]

/-- The packet decoder depends on the bytes below the length alone (R19). -/
theorem decodePacket_congr {len : Nat} {rd rd' : Nat → Byte} (h : ∀ a, a < len → rd a = rd' a) :
    decodePacket len rd = decodePacket len rd' := by
  unfold decodePacket
  by_cases h1 : len < 1
  · simp [h1]
  · rw [if_neg h1, if_neg h1, h 0 (by omega)]
    cases FrameType.ofNibble (hiNibble (rd' 0)) with
    | none => rfl
    | some t =>
      by_cases h2 : len < t.len
      · simp [h2]
      · by_cases h3 : t.len < len
        · simp [h2, h3]
        · simp only [h2, h3, if_false]
          rw [Packet.read_congr fun a ha => h a (by omega)]

/-- The packet decoder answers a packet exactly when the nibble is assigned and the length is that type's. -/
theorem decodePacket_ok {len : Nat} {rd : Nat → Byte} {p : Packet} :
    decodePacket len rd = .ok p ↔
      ∃ t, FrameType.ofNibble (hiNibble (rd 0)) = some t ∧ len = t.len ∧ p = Packet.read t rd := by
  unfold decodePacket
  constructor
  · intro h
    split at h
    · cases h
    · split at h
      · cases h
      · rename_i t ht
        split at h
        · cases h
        · split at h
          · cases h
          · exact ⟨t, ht, by omega, by cases h; rfl⟩
  · rintro ⟨t, ht, hl, rfl⟩
    have := t.three_le_len
    rw [if_neg (by omega), ht]
    simp [hl]

/-- The four rejections of the packet decoder, in the order of R121. -/
theorem decodePacket_error {len : Nat} {rd : Nat → Byte} {e : ErrorKind} :
    decodePacket len rd = .error e ↔
      (len < 1 ∧ e = .truncatedBuffer) ∨
      (1 ≤ len ∧ FrameType.ofNibble (hiNibble (rd 0)) = none ∧ e = .unknownFrameType) ∨
      (1 ≤ len ∧ ∃ t, FrameType.ofNibble (hiNibble (rd 0)) = some t ∧
        ((len < t.len ∧ e = .truncatedBuffer) ∨ (t.len < len ∧ e = .sizeMismatch))) := by
  unfold decodePacket
  by_cases h1 : len < 1
  · simp [h1, eq_comm]
  · rw [if_neg h1]
    cases ht : FrameType.ofNibble (hiNibble (rd 0)) with
    | none => simp [h1, eq_comm, show 1 ≤ len by omega]
    | some t =>
      by_cases h2 : len < t.len
      · simp [h1, h2, eq_comm, show 1 ≤ len by omega, show ¬ t.len < len by omega]
      · by_cases h3 : t.len < len
        · simp [h1, h2, h3, eq_comm, show 1 ≤ len by omega]
        · simp [h1, h2, h3]

namespace Machine

theorem raise_eq (e : ErrorKind) (s : State) : raise e s = .next (s.respond (.error e)) := rfl
theorem complete_eq (r : Results) (s : State) : complete r s = .next (s.respond (.done false r)) := rfl
theorem completeWarning_eq (w : Bool) (r : Results) (s : State) :
    completeWarning w r s = .next (s.respond (.done w r)) := rfl
theorem deliver_eq (p : Packet) (s : State) :
    deliver p s = .next (s.respond (.done false (Results.ofPacket p))) := rfl
theorem pack_eq (w : Bool) (p : Payload) (s : State) :
    pack w p s = .next (s.respond (.done w (Results.ofBytes (s.inp.req.packet p).bytes))) := rfl

/-- A wrong length is SizeMismatch, whatever the bytes are (R105). -/
theorem unpack_of_length {t : FrameType} {s : State} (h : s.inp.req.ibufLen.toNat ≠ t.len) :
    unpack t s = .next (s.respond (.error .sizeMismatch)) := by
  simp [unpack, h, raise_eq]

/-- The right length with the wrong nibble is TypeMismatch (R105). -/
theorem unpack_of_type {t : FrameType} {s : State} (h : s.inp.req.ibufLen.toNat = t.len)
    (ht : hiNibble (s.inp.req.ibuf.read 0) ≠ t.nibble) :
    unpack t s = .next (s.respond (.error .typeMismatch)) := by
  simp [unpack, h, ht, raise_eq]

/-- The right length and nibble give the packet (R105). -/
theorem unpack_of_match {t : FrameType} {s : State} (h : s.inp.req.ibufLen.toNat = t.len)
    (ht : hiNibble (s.inp.req.ibuf.read 0) = t.nibble) :
    unpack t s = .next (s.respond (.done false (Results.ofPacket (Packet.read t s.inp.req.ibuf.read)))) := by
  simp [unpack, h, ht, deliver_eq]

/-- The operation `decode` answers what the packet decoder answers. -/
theorem execDecode_eq (s : State) :
    execDecode s =
      .next (s.respond
        (match decodePacket s.inp.req.ibufLen.toNat s.inp.req.ibuf.read with
          | .error e => .error e
          | .ok p => .done false (Results.ofPacket p))) := by
  unfold execDecode
  split <;> simp [*, raise_eq, deliver_eq]

@[simp] theorem firstTerminator_nil : firstTerminator [] = 0 := rfl

/-- The first terminator is at or below the length. -/
theorem firstTerminator_le (buf : List Byte) : firstTerminator buf ≤ buf.length := by
  induction buf with
  | nil => simp
  | cons b rest ih => unfold firstTerminator; split <;> simp; exact ih

/-- No byte before the first terminator is one. -/
theorem firstTerminator_before {buf : List Byte} {j : Nat} (h : j < firstTerminator buf) :
    buf[j]? ≠ some Config.terminator := by
  induction buf generalizing j with
  | nil => simp
  | cons b rest ih =>
    unfold firstTerminator at h
    split at h
    · omega
    · cases j with
      | zero => simpa using ‹_›
      | succ k => simpa using ih (by omega)

/-- The byte at the first terminator, when there is one, is a terminator. -/
theorem firstTerminator_at {buf : List Byte} (h : firstTerminator buf < buf.length) :
    buf[firstTerminator buf]? = some Config.terminator := by
  induction buf with
  | nil => simp at h
  | cons b rest ih =>
    unfold firstTerminator at h ⊢
    split
    · simp [*]
    · rename_i hb
      rw [if_neg hb] at h
      simpa using ih (by simpa using h)

@[simp] theorem Request.infoPayload_length (q : Request) : q.infoPayload.length = Config.infoSize := by
  simp [Request.infoPayload]

/-- The INFO payload byte by byte (R98). -/
theorem Request.infoPayload_getElem? (q : Request) {j : Nat} (h : j < 300) :
    q.infoPayload[j]? = some (if j < q.msgTaken then q.msg.read j else Config.terminator) := by
  simp [Request.infoPayload, h]

end Machine

end Sys2Proof
end

