-- ==== Sys2Proof/Laws/Fields.lean ====
section
/-!
SUPPORT. The operands as numbers, and the writers and readers of the codec in the spec's own formulas (spec/20_memory.md R36, R37).
-/

namespace Sys2Proof

/-- A byte-wide slice is the shift of R37. -/
theorem slice_byte {w : Nat} (v : BitVec w) (lo : Nat) :
    v.extractLsb' lo 8 = BitVec.ofNat 8 (v.toNat >>> lo % 256) := by
  apply BitVec.eq_of_toNat_eq
  rw [slice_toNat]
  simp [Nat.shiftRight_eq_div_pow]

/-- Byte 0 of a header is `type * 16 + flags` (spec/40_header_codec.md R81). -/
theorem header_byte (t f : Nibble) : (t ++ f : Byte) = BitVec.ofNat 8 (t.toNat * 16 + f.toNat) := by
  apply BitVec.eq_of_toNat_eq
  rw [nibbles_toNat]
  have := t.isLt
  have := f.isLt
  simp
  omega

namespace Machine

theorem Request.flags_toNat (q : Request) : q.flags.toNat = q.flagsIn.toNat % 16 := by
  simp [Request.flags]

theorem Request.time_toNat (q : Request) : q.time.toNat = q.timeIn.toNat % 65536 := by
  simp [Request.time]

theorem lowHalf_toNat (v : Word) : (lowHalf v).toNat = v.toNat % 65536 := by
  simp [lowHalf]

end Machine

namespace Safety

open Sys2Proof.Machine

/-- `put_i32` after any prefix leaves the field at the prefix's length. -/
theorem fieldAt_put32 {bytes : List Byte} {a n : Nat} (pre : List Byte) (v : Word) (post : List Byte)
    (h : bytes = pre ++ (put32 v ++ post)) (ha : a = pre.length) (hn : n = v.toNat) : FieldAt bytes a 4 n := by
  subst h ha hn
  intro k hk
  have : k = 0 ∨ k = 1 ∨ k = 2 ∨ k = 3 := by omega
  rcases this with rfl | rfl | rfl | rfl <;> simp [put32, slice_byte]

/-- `put_i16` after any prefix leaves the field at the prefix's length. -/
theorem fieldAt_put16 {bytes : List Byte} {a n : Nat} (pre : List Byte) (v : Half) (post : List Byte)
    (h : bytes = pre ++ (put16 v ++ post)) (ha : a = pre.length) (hn : n = v.toNat) : FieldAt bytes a 2 n := by
  subst h ha hn
  intro k hk
  have : k = 0 ∨ k = 1 := by omega
  rcases this with rfl | rfl <;> simp [put16, slice_byte]

/-- The header's first byte and its time. -/
theorem fieldAt_header (t f : Nibble) (time : Half) (post : List Byte) :
    FieldAt (headerBytes t f time ++ post) 0 1 (t.toNat * 16 + f.toNat) ∧
      FieldAt (headerBytes t f time ++ post) 1 2 time.toNat := by
  refine ⟨?_, fieldAt_put16 [t ++ f] time post rfl rfl rfl⟩
  intro k hk
  obtain rfl : k = 0 := by omega
  have := t.isLt
  have := f.isLt
  have : (BitVec.toNat t * 16 + BitVec.toNat f) % 256 = BitVec.toNat t * 16 + BitVec.toNat f := by omega
  simp [headerBytes, header_byte, this]

/-- The bytes of a request's packet begin with its header. -/
theorem headerOf_packet (q : Request) (p : Payload) :
    HeaderOf (q.packet p).bytes p.type.nibble.toNat q := by
  have h := fieldAt_header p.type.nibble q.flags q.time p.bytes
  rwa [Request.flags_toNat, Request.time_toNat] at h

/-- `MemRead(a, 2)` is `get_u16`. -/
theorem memRead_two (rd : Nat → Byte) (a : Nat) : memRead rd a 2 = (get16 rd a).toNat := by
  rw [get16_toNat]
  simp [memRead, List.range_succ]

/-- `MemRead(a, 4)` is `get_i32` before its sign is taken. -/
theorem memRead_four (rd : Nat → Byte) (a : Nat) : memRead rd a 4 = (get32 rd a).toNat := by
  rw [get32_toNat]
  simp [memRead, List.range_succ]
  omega

/-- The type nibble as a number. -/
theorem typeNibble_eq (q : Request) : typeNibble q = (hiNibble (q.ibuf.read 0)).toNat := by
  rw [hiNibble_toNat]; rfl

/-- The next state of `answered` is that of `respond`. -/
theorem answered_eq (s : State) (r : Response) : answered s r = .next (s.respond r) := rfl

end Safety

end Sys2Proof
end

