-- ==== Sys2Proof/Laws/Memory.lean ====
section
/-!
SUPPORT. The laws of a byte space: read after write, read after load, and the canonical form every operation keeps.
-/

namespace Sys2Proof.Machine

@[simp] theorem Memory.read_nil (a : Nat) : Memory.read [] a = Memory.unlisted := rfl

theorem Memory.read_cons (b : Nat) (v : Byte) (m : Memory) (a : Nat) :
    Memory.read ((b, v) :: m) a = if a = b then v else Memory.read m a := rfl

@[simp] theorem Memory.load_nil (m : Memory) (a : Nat) : Memory.load m a [] = m := rfl

@[simp] theorem Memory.load_cons (m : Memory) (a : Nat) (b : Byte) (bs : List Byte) :
    Memory.load m a (b :: bs) = Memory.load (Memory.write m a b) (a + 1) bs := rfl

/-- The bounds of the canonical form may be widened downwards. -/
theorem Memory.risesFrom_mono {lo lo' n : Nat} {m : Memory} (hl : lo' ≤ lo) (h : Memory.risesFrom lo n m = true) :
    Memory.risesFrom lo' n m = true := by
  cases m with
  | nil => rfl
  | cons c rest =>
    obtain ⟨a, v⟩ := c
    simp only [Memory.risesFrom, Bool.and_eq_true, decide_eq_true_eq] at h ⊢
    exact ⟨⟨⟨by omega, h.1.1.2⟩, h.1.2⟩, h.2⟩

/-- An index below every listed one reads as unlisted. -/
theorem Memory.read_below {lo n a : Nat} {m : Memory} (h : Memory.risesFrom lo n m = true) (ha : a < lo) :
    Memory.read m a = Memory.unlisted := by
  induction m generalizing lo with
  | nil => rfl
  | cons c rest ih =>
    obtain ⟨b, v⟩ := c
    simp only [Memory.risesFrom, Bool.and_eq_true, decide_eq_true_eq] at h
    rw [Memory.read_cons, if_neg (by omega)]
    exact ih h.2 (by omega)

/-- A write keeps the canonical form, from any lower bound at or below the index. -/
theorem Memory.write_risesFrom {lo n a : Nat} {m : Memory} (v : Byte) (h : Memory.risesFrom lo n m = true)
    (hl : lo ≤ a) (hn : a < n) : Memory.risesFrom lo n (Memory.write m a v) = true := by
  induction m generalizing lo with
  | nil =>
    by_cases hv : v = Memory.unlisted <;> simp [Memory.write, Memory.risesFrom, hv, hl, hn]
  | cons c rest ih =>
    obtain ⟨b, w⟩ := c
    have h' := h
    simp only [Memory.risesFrom, Bool.and_eq_true, decide_eq_true_eq] at h
    obtain ⟨⟨⟨h1, h2⟩, h3⟩, h4⟩ := h
    unfold Memory.write
    split
    · split
      · exact h'
      · simp only [Memory.risesFrom, Bool.and_eq_true, decide_eq_true_eq]
        exact ⟨⟨⟨hl, hn⟩, ‹_›⟩, ⟨⟨by omega, h2⟩, h3⟩, h4⟩
    · split
      · split
        · exact Memory.risesFrom_mono (by omega) h4
        · simp only [Memory.risesFrom, Bool.and_eq_true, decide_eq_true_eq]
          exact ⟨⟨⟨hl, hn⟩, ‹_›⟩, by subst_vars; exact h4⟩
      · simp only [Memory.risesFrom, Bool.and_eq_true, decide_eq_true_eq]
        exact ⟨⟨⟨h1, h2⟩, h3⟩, ih h4 (by omega)⟩

/-- A write to a wire that exists keeps the canonical form. -/
theorem Memory.write_wf {n a : Nat} {m : Memory} (v : Byte) (h : Memory.wf n m = true) (hn : a < n) :
    Memory.wf n (Memory.write m a v) = true :=
  Memory.write_risesFrom v h (Nat.zero_le a) hn

/-- Loading bytes onto wires that exist keeps the canonical form. -/
theorem Memory.load_wf {n a : Nat} {m : Memory} (bs : List Byte) (h : Memory.wf n m = true)
    (hn : a + bs.length ≤ n) : Memory.wf n (Memory.load m a bs) = true := by
  induction bs generalizing m a with
  | nil => exact h
  | cons b rest ih =>
    simp only [List.length_cons] at hn
    exact ih (Memory.write_wf b h (by omega)) (by omega)

@[simp] theorem Memory.nil_wf (n : Nat) : Memory.wf n [] = true := rfl

/-- Read after write, in a rising list. -/
theorem Memory.read_write_risesFrom {lo n : Nat} {m : Memory} (h : Memory.risesFrom lo n m = true) (a : Nat) (v : Byte)
    (b : Nat) : Memory.read (Memory.write m a v) b = if b = a then v else Memory.read m b := by
  induction m generalizing lo with
  | nil =>
    by_cases hv : v = Memory.unlisted <;> simp [Memory.write, Memory.read_cons, hv]
  | cons c rest ih =>
    obtain ⟨k, w⟩ := c
    have h' := h
    simp only [Memory.risesFrom, Bool.and_eq_true, decide_eq_true_eq] at h
    unfold Memory.write
    split
    · have hlow : Memory.read ((k, w) :: rest) a = Memory.unlisted := by
        rw [Memory.read_cons, if_neg (by omega)]
        exact Memory.read_below h.2 (by omega)
      split
      · split
        · subst_vars; exact hlow
        · rfl
      · rw [Memory.read_cons]
    · split
      · subst_vars
        split
        · rw [Memory.read_cons]
          split
          · subst_vars; exact Memory.read_below h.2 (by omega)
          · rfl
        · simp only [Memory.read_cons]
          split <;> rfl
      · simp only [Memory.read_cons, ih h.2]
        split
        · rw [if_neg (by omega)]
        · rfl

/-- Read after write: the byte written, and every other byte as before. -/
theorem Memory.read_write {n : Nat} {m : Memory} (h : Memory.wf n m = true) (a : Nat) (v : Byte) (b : Nat) :
    Memory.read (Memory.write m a v) b = if b = a then v else Memory.read m b :=
  Memory.read_write_risesFrom h a v b

/-- Read after load: the bytes loaded, and every other byte as before. -/
theorem Memory.read_load {n a : Nat} {m : Memory} (bs : List Byte) (h : Memory.wf n m = true)
    (hn : a + bs.length ≤ n) (b : Nat) :
    Memory.read (Memory.load m a bs) b = if a ≤ b ∧ b < a + bs.length then bs.getD (b - a) 0 else Memory.read m b := by
  induction bs generalizing m a with
  | nil => simp
  | cons c rest ih =>
    simp only [List.length_cons] at hn
    rw [Memory.load_cons, ih (Memory.write_wf c h (by omega)) (by omega), Memory.read_write h]
    by_cases hb : b = a
    · subst hb
      simp
    · by_cases hr : a + 1 ≤ b ∧ b < a + 1 + rest.length
      · have : b - a = (b - (a + 1)) + 1 := by omega
        rw [if_pos hr, if_pos (by simp only [List.length_cons]; omega), this]
        simp
      · rw [if_neg hr, if_neg hb, if_neg (by simp only [List.length_cons]; omega)]

/-- The canonical form is one: rising lists that read alike are equal. -/
theorem Memory.ext_risesFrom {lo n : Nat} {m m' : Memory} (h : Memory.risesFrom lo n m = true)
    (h' : Memory.risesFrom lo n m' = true) (he : ∀ a, Memory.read m a = Memory.read m' a) : m = m' := by
  induction m generalizing lo m' with
  | nil =>
    cases m' with
    | nil => rfl
    | cons c r =>
      obtain ⟨b, w⟩ := c
      have := he b
      simp only [Memory.risesFrom, Bool.and_eq_true, decide_eq_true_eq] at h'
      simp [Memory.read_cons] at this
      exact absurd this.symm h'.1.2
  | cons c r ih =>
    obtain ⟨b, w⟩ := c
    simp only [Memory.risesFrom, Bool.and_eq_true, decide_eq_true_eq] at h
    cases m' with
    | nil =>
      have := he b
      simp [Memory.read_cons] at this
      exact absurd this h.1.2
    | cons c' r' =>
      obtain ⟨b', w'⟩ := c'
      simp only [Memory.risesFrom, Bool.and_eq_true, decide_eq_true_eq] at h'
      have hb : b = b' := by
        rcases Nat.lt_trichotomy b b' with hlt | heq | hgt
        · have := he b
          rw [Memory.read_cons, if_pos rfl, Memory.read_cons, if_neg (by omega),
            Memory.read_below h'.2 (by omega)] at this
          exact absurd this h.1.2
        · exact heq
        · have := he b'
          rw [Memory.read_cons, if_neg (by omega), Memory.read_below h.2 (by omega), Memory.read_cons, if_pos rfl] at this
          exact absurd this.symm h'.1.2
      subst hb
      have hw : w = w' := by simpa [Memory.read_cons] using he b
      subst hw
      rw [ih h.2 h'.2]
      intro a
      by_cases ha : a = b
      · subst ha
        rw [Memory.read_below h.2 (by omega), Memory.read_below h'.2 (by omega)]
      · simpa [Memory.read_cons, ha] using he a

/-- Equal byte spaces are equal data. -/
theorem Memory.ext {n : Nat} {m m' : Memory} (h : Memory.wf n m = true) (h' : Memory.wf n m' = true)
    (he : ∀ a, Memory.read m a = Memory.read m' a) : m = m' :=
  Memory.ext_risesFrom h h' he

/-- The input ports at reset are canonical. -/
theorem Request.zero_wf : Request.zero.wf = true := rfl

/-- Copying a buffer to `ibuf` keeps the ports canonical. -/
theorem Request.withBuffer_wf {q : Request} (b : List Byte) (h : q.wf = true) : (q.withBuffer b).wf = true := by
  simp only [Request.wf, Bool.and_eq_true] at h ⊢
  refine ⟨h.1, Memory.load_wf _ h.2 ?_⟩
  simp [List.length_take]

end Sys2Proof.Machine
end

