-- ==== Sys2Proof/Laws/PerInstr.lean ====
section
/-!
SUPPORT. One law per instruction: an operation's encoding is a code on `op`, and a packet's encoding has its registry length (spec/30
R54, R70).
-/

namespace Sys2Proof.Laws

/-- The frame type of a packet of format FRAME; an operation of format OP6 has none. -/
def frameType? : Instr → Option FrameType
  | .encodeHeader => none
  | .decodeHeader => none
  | .typeOf => none
  | .packMotion => none
  | .packEnvironmental => none
  | .packAirQuality => none
  | .packSecondaryAccel => none
  | .packAltitude => none
  | .packOrientation => none
  | .packCommand => none
  | .packInfo => none
  | .unpackMotion => none
  | .unpackEnvironmental => none
  | .unpackAirQuality => none
  | .unpackSecondaryAccel => none
  | .unpackAltitude => none
  | .unpackOrientation => none
  | .unpackCommand => none
  | .unpackInfo => none
  | .decode => none
  | .frameNull .. => some .null
  | .frameMotion .. => some .motion
  | .frameEnvironmental .. => some .environmental
  | .frameAirQuality .. => some .airQuality
  | .frameSecondaryAccel .. => some .secondaryAccel
  | .frameAltitude .. => some .altitude
  | .frameOrientation .. => some .orientation
  | .frameCommand .. => some .command
  | .frameInfo .. => some .info

/-- A well-formed instruction of format OP6 is one code; one of format FRAME is as many bytes as its type's `LEN`. -/
def EncodedSize.Statement (i : Instr) : Prop :=
  i.wf = true →
    match encode i with
    | .op _ => frameType? i = none
    | .packet bytes => ∃ t, frameType? i = some t ∧ bytes.length = t.len

theorem EncodedSize.encodeHeader : EncodedSize.Statement .encodeHeader := fun _ => rfl
theorem EncodedSize.decodeHeader : EncodedSize.Statement .decodeHeader := fun _ => rfl
theorem EncodedSize.typeOf : EncodedSize.Statement .typeOf := fun _ => rfl
theorem EncodedSize.packMotion : EncodedSize.Statement .packMotion := fun _ => rfl
theorem EncodedSize.packEnvironmental : EncodedSize.Statement .packEnvironmental := fun _ => rfl
theorem EncodedSize.packAirQuality : EncodedSize.Statement .packAirQuality := fun _ => rfl
theorem EncodedSize.packSecondaryAccel : EncodedSize.Statement .packSecondaryAccel := fun _ => rfl
theorem EncodedSize.packAltitude : EncodedSize.Statement .packAltitude := fun _ => rfl
theorem EncodedSize.packOrientation : EncodedSize.Statement .packOrientation := fun _ => rfl
theorem EncodedSize.packCommand : EncodedSize.Statement .packCommand := fun _ => rfl
theorem EncodedSize.packInfo : EncodedSize.Statement .packInfo := fun _ => rfl
theorem EncodedSize.unpackMotion : EncodedSize.Statement .unpackMotion := fun _ => rfl
theorem EncodedSize.unpackEnvironmental : EncodedSize.Statement .unpackEnvironmental := fun _ => rfl
theorem EncodedSize.unpackAirQuality : EncodedSize.Statement .unpackAirQuality := fun _ => rfl
theorem EncodedSize.unpackSecondaryAccel : EncodedSize.Statement .unpackSecondaryAccel := fun _ => rfl
theorem EncodedSize.unpackAltitude : EncodedSize.Statement .unpackAltitude := fun _ => rfl
theorem EncodedSize.unpackOrientation : EncodedSize.Statement .unpackOrientation := fun _ => rfl
theorem EncodedSize.unpackCommand : EncodedSize.Statement .unpackCommand := fun _ => rfl
theorem EncodedSize.unpackInfo : EncodedSize.Statement .unpackInfo := fun _ => rfl
theorem EncodedSize.decode : EncodedSize.Statement .decode := fun _ => rfl
theorem EncodedSize.frameNull (f : Nibble) (t : Half) : EncodedSize.Statement (.frameNull f t) :=
  fun h => ⟨_, rfl, Packet.bytes_length (p := ⟨f, t, .null⟩) h⟩
theorem EncodedSize.frameMotion (f : Nibble) (t : Half) (p : Motion) : EncodedSize.Statement (.frameMotion f t p) :=
  fun h => ⟨_, rfl, Packet.bytes_length (p := ⟨f, t, .motion p⟩) h⟩
theorem EncodedSize.frameEnvironmental (f : Nibble) (t : Half) (p : Environmental) : EncodedSize.Statement (.frameEnvironmental f t p) :=
  fun h => ⟨_, rfl, Packet.bytes_length (p := ⟨f, t, .environmental p⟩) h⟩
theorem EncodedSize.frameAirQuality (f : Nibble) (t : Half) (p : AirQuality) : EncodedSize.Statement (.frameAirQuality f t p) :=
  fun h => ⟨_, rfl, Packet.bytes_length (p := ⟨f, t, .airQuality p⟩) h⟩
theorem EncodedSize.frameSecondaryAccel (f : Nibble) (t : Half) (p : SecondaryAccel) : EncodedSize.Statement (.frameSecondaryAccel f t p) :=
  fun h => ⟨_, rfl, Packet.bytes_length (p := ⟨f, t, .secondaryAccel p⟩) h⟩
theorem EncodedSize.frameAltitude (f : Nibble) (t : Half) (p : Altitude) : EncodedSize.Statement (.frameAltitude f t p) :=
  fun h => ⟨_, rfl, Packet.bytes_length (p := ⟨f, t, .altitude p⟩) h⟩
theorem EncodedSize.frameOrientation (f : Nibble) (t : Half) (p : Orientation) : EncodedSize.Statement (.frameOrientation f t p) :=
  fun h => ⟨_, rfl, Packet.bytes_length (p := ⟨f, t, .orientation p⟩) h⟩
theorem EncodedSize.frameCommand (f : Nibble) (t : Half) : EncodedSize.Statement (.frameCommand f t) :=
  fun h => ⟨_, rfl, Packet.bytes_length (p := ⟨f, t, .command⟩) h⟩
theorem EncodedSize.frameInfo (f : Nibble) (t : Half) (b : List Byte) : EncodedSize.Statement (.frameInfo f t b) :=
  fun h => ⟨_, rfl, Packet.bytes_length (p := ⟨f, t, .info b⟩) h⟩

end Sys2Proof.Laws
end

