-- ==== Sys2Proof/Laws/Step.lean ====
section
/-!
SUPPORT. What a step can do, said once (spec/70_reset_and_hazards.md R155, R158, R160), and a run of one step more.
-/

namespace Sys2Proof.Machine

/-- The only refusal of the decoder of codes is IllegalOp (R72). -/
theorem decodeOp_error {c : BitVec 6} {e : ErrorKind} (h : decodeOp c = .error e) : e = .illegalOp := by
  unfold decodeOp at h
  split at h <;> cases h
  rfl

/-- A step that answers a state either gives no response, because `rst` is asserted or no request is presented, or serves a held
request: a reserved code is IllegalOp, any other code runs its operation; then no request is presented. -/
theorem step_next {s t : State} (h : step s = .next t) :
    ((s.inp.rst = true ∨ s.inp.reqValid = false) ∧ t = s.noResponse.advance) ∨
    (s.inp.rst = false ∧ s.inp.reqValid = true ∧ s.inp.held = true ∧
      ((decodeOp s.inp.req.op = .error .illegalOp ∧ t = (s.respond (.error .illegalOp)).advance) ∨
        ∃ i u, decodeOp s.inp.req.op = .ok i ∧ exec i s = .next u ∧ t = u.advance)) := by
  unfold step at h
  split at h
  · cases h; exact .inl ⟨.inl ‹_›, rfl⟩
  · rename_i hr
    split at h
    · rename_i hv
      cases h
      exact .inl ⟨.inr (by simpa using hv), rfl⟩
    · rename_i hv
      split at h
      · cases h
      · rename_i hh
        refine .inr ⟨by simpa using hr, by simpa using hv, by simpa using hh, ?_⟩
        cases hd : decodeOp s.inp.req.op with
        | error e =>
          obtain rfl := decodeOp_error hd
          simp only [fetch, hd] at h
          cases h
          exact .inl ⟨rfl, rfl⟩
        | ok i =>
          simp only [fetch, hd] at h
          cases he : exec i s with
          | next u =>
            rw [he] at h
            cases h
            exact .inr ⟨i, u, rfl, he, rfl⟩
          | fault r => rw [he] at h; cases h
          | refused r => rw [he] at h; cases h

@[simp] theorem runOn_nil (s : State) : runOn [] s = .next s := rfl

/-- A run starts with the step on its first drive. -/
theorem runOn_cons {d : Drive} {s t : State} (h : stepOn d s = .next t) (ds : List Drive) :
    runOn (d :: ds) s = runOn ds t := by
  simp only [runOn, h]

end Sys2Proof.Machine
end

