-- ==== Sys2Proof/Tests/Slice0.lean ====
section
/-!
SUPPORT. The model's own tests. Expected values are from spec/95_test_vectors.md (S1 to S2, V1 to V84) or are worked out by hand from the
rules; then one witness theorem per statement that has hypotheses, at the boundary of each clause.
-/

namespace Sys2Proof.Tests

open Sys2Proof.Machine Sys2Proof.Safety

-- Small states: one request, presented right after reset

/-- A request for operation `op` with a buffer. -/
def onBuffer (op : BitVec 6) (bytes : List Byte) : Request := { Request.zero.withBuffer bytes with op := op }

/-- A request for an encode-side operation. -/
def onFields (op : BitVec 6) (flags : BitVec 8) (time : BitVec 32) (xs : List Word) : Request :=
  { Request.zero with op := op, flagsIn := flags, timeIn := time, x := Vector.ofFn fun i => xs.getD i 0 }

/-- A request for encode_header. -/
def onHeader (type flags : BitVec 8) (time : BitVec 32) : Request :=
  { Request.zero with typeIn := type, flagsIn := flags, timeIn := time }

/-- A request for pack_info with `len` bytes announced and `bytes` on the wires. -/
def onMessage (flags : BitVec 8) (time : BitVec 32) (len : BitVec 16) (bytes : List Byte) : Request :=
  { Request.zero with op := 0x18, flagsIn := flags, timeIn := time, msgLen := len, msg := Memory.load [] 0 bytes }

/-- What the block answers to a request presented right after reset. -/
def answer (q : Request) : Option Response :=
  match step (State.reset.present q) with
  | .next s => s.rsp
  | .fault _ => none
  | .refused _ => none

/-- An encode-side response. -/
def wrote (bytes : List Byte) : Option Response := some (.done false (produced bytes.length bytes))

/-- A decode-side response. -/
def gave (type flags : Nibble) (time : Half) (xs : List Word) : Option Response :=
  some (.done false { hdrType := some type, hdrFlags := some flags, hdrTime := some time, x := xs })

/-- An error response. -/
def failed (e : ErrorKind) : Option Response := some (.error e)

-- WellFormed refuses an ill-formed term for its one check (R64)

theorem test_wf_refuses_short_info : Instr.wf (.frameInfo 0 0 []) = false := by decide
theorem test_wf_refuses_long_info : Instr.wf (.frameInfo 0 0 (List.replicate 301 0)) = false := by decide +kernel
theorem test_wf_takes_info : Instr.wf (.frameInfo 0 0 (List.replicate 300 0)) = true := by decide +kernel
theorem test_wf_takes_codes : operations.all (fun p => p.2.wf) = true := by decide

-- Decoding: the codes of R71 and the packets of R56 to R64, written out bit by bit

theorem test_decode_header_codes :
    (decode (.op 0b000000#6)).toOption = some .encodeHeader ∧ (decode (.op 0b000001#6)).toOption = some .decodeHeader ∧
      (decode (.op 0b000010#6)).toOption = some .typeOf := by decide

theorem test_decode_pack_codes :
    (decode (.op 0b010001#6)).toOption = some .packMotion ∧ (decode (.op 0b010010#6)).toOption = some .packEnvironmental ∧
      (decode (.op 0b010011#6)).toOption = some .packAirQuality ∧
      (decode (.op 0b010100#6)).toOption = some .packSecondaryAccel ∧
      (decode (.op 0b010101#6)).toOption = some .packAltitude ∧ (decode (.op 0b010110#6)).toOption = some .packOrientation ∧
      (decode (.op 0b010111#6)).toOption = some .packCommand ∧ (decode (.op 0b011000#6)).toOption = some .packInfo := by
  decide

theorem test_decode_unpack_codes :
    (decode (.op 0b100001#6)).toOption = some .unpackMotion ∧
      (decode (.op 0b100010#6)).toOption = some .unpackEnvironmental ∧
      (decode (.op 0b100011#6)).toOption = some .unpackAirQuality ∧
      (decode (.op 0b100100#6)).toOption = some .unpackSecondaryAccel ∧
      (decode (.op 0b100101#6)).toOption = some .unpackAltitude ∧
      (decode (.op 0b100110#6)).toOption = some .unpackOrientation ∧
      (decode (.op 0b100111#6)).toOption = some .unpackCommand ∧
      (decode (.op 0b101000#6)).toOption = some .unpackInfo := by
  decide

theorem test_decode_decode_code : (decode (.op 0b110000#6)).toOption = some .decode := by decide

/-- V80 to V83: reserved codes, the would-be pack and unpack of NULL among them. -/
theorem test_decode_reserved_codes :
    ([0x03, 0x0F, 0x10, 0x19, 0x1F, 0x20, 0x29, 0x2F, 0x31, 0x3F] : List (BitVec 6)).all
      (fun c => (decode (.op c)).toOption.isNone) = true := by decide

theorem test_decode_frame_null :
    (decode (.packet [0b00001010, 0x12, 0x34])).toOption = some (.frameNull 10 0x1234) := by decide

theorem test_decode_frame_motion :
    (decode (.packet [0b00010011, 0xFF, 0xFF, 0, 0, 0, 1, 0xFF, 0xFF, 0xFF, 0xFF, 0x7F, 0xFF, 0xFF, 0xFF, 0x80, 0, 0, 0,
      0, 0, 0, 0, 0, 0, 1, 0, 0xFF, 0xFF, 0xFF, 0, 0x12, 0x34, 0x56, 0x78, 0xED, 0xCB, 0xA9, 0x88])).toOption =
      some (.frameMotion 3 65535
        ⟨1, -1, 2147483647, 0x80000000, 0, 256, -256, 305419896, -305419896⟩) := by decide

theorem test_decode_frame_environmental :
    (decode (.packet [0b00100101, 0, 0x78, 0, 0, 0x09, 0xC4, 0, 1, 0x8B, 0xCD, 0, 0, 0, 0x2D, 0, 0, 0, 0x96])).toOption =
      some (.frameEnvironmental 5 120 ⟨2500, 101325, 45, 150⟩) := by decide

theorem test_decode_frame_air_quality :
    (decode (.packet [0b00111010, 0x12, 0x34, 0x01, 0x90, 0xFF, 0xFE])).toOption =
      some (.frameAirQuality 10 4660 ⟨400, -2⟩) := by decide

theorem test_decode_frame_secondary_accel :
    (decode (.packet [0b01000001, 0, 1, 0xFF, 0xFF, 0xFC, 0x18, 0, 0, 0, 0, 0, 0, 3, 0xE8])).toOption =
      some (.frameSecondaryAccel 1 1 ⟨-1000, 0, 1000⟩) := by decide

theorem test_decode_frame_altitude :
    (decode (.packet [0b01011111, 0x11, 0x70, 0xFF, 0xFE, 0x1D, 0xC0])).toOption =
      some (.frameAltitude 15 4464 ⟨-123456⟩) := by decide

theorem test_decode_frame_orientation :
    (decode (.packet [0b01100100, 0x12, 0x34, 0xFC, 0x7C, 0x01, 0xC2, 0x46, 0x4F])).toOption =
      some (.frameOrientation 4 4660 ⟨-900, 450, 17999⟩) := by decide

theorem test_decode_frame_command :
    (decode (.packet [0b01110000, 0x00, 0x3C])).toOption = some (.frameCommand 0 60) := by decide

theorem test_decode_frame_info :
    (decode (.packet ([0b10000001, 0x01, 0xF4, 0x41, 0x50, 0x4F, 0x47, 0x45, 0x45] ++ List.replicate 294 0))).toOption =
      some (.frameInfo 1 500 ([0x41, 0x50, 0x4F, 0x47, 0x45, 0x45] ++ List.replicate 294 0)) := by decide +kernel

/-- R66: a packet of an unassigned type, and packets one byte short and one byte long, decode to nothing. -/
theorem test_decode_rejects :
    (decode (.packet [0x90, 0, 0])).toOption = none ∧ (decode (.packet [0x70, 0])).toOption = none ∧
      (decode (.packet [0x70, 0, 0x3C, 0])).toOption = none ∧ (decode (.packet [])).toOption = none := by decide

/-- The table's words (log entry 10): a code, a first byte of a packet, and a word of an unassigned type. -/
theorem test_table_words :
    decodeTableWord 8 0x12 = some .packEnvironmental ∧ decodeTableWord 8 0x70 = some (.frameCommand 0 0) ∧
      decodeTableWord 24 0x3C0070 = some (.frameCommand 0 60) ∧ decodeTableWord 8 0x90 = none ∧
      decodeTableWord 6 0x03 = none := by decide

theorem test_fetch_word_code :
    (match step (State.reset.withFetchWord 8 0x17) with
      | .next s => s.rsp
      | .fault _ => none
      | .refused _ => none) = wrote [0x70, 0, 0] := by decide

theorem test_fetch_word_packet :
    (match step (State.reset.withFetchWord 24 0x3412AF) with
        | .next s => s.rsp
        | .fault _ => none
        | .refused _ => none) = failed .unknownFrameType ∧
      (match step (State.reset.withFetchWord 24 0x34126F) with
        | .next s => s.rsp
        | .fault _ => none
        | .refused _ => none) = gave 6 15 0x1234 [0, 0, 0] := by decide

-- Header codec

/-- V2, V4: flags and time narrowed, type NULL accepted. -/
theorem test_encode_header :
    answer (onHeader 2 0xAB 0x12345) = wrote [0x2B, 0x23, 0x45] ∧ answer (onHeader 0 0 65536) = wrote [0, 0, 0] := by decide

/-- V3, V8: the boundary of the type. -/
theorem test_encode_header_type :
    answer (onHeader 15 255 0xFFFFFFFF) = wrote [0xFF, 0xFF, 0xFF] ∧ answer (onHeader 16 0 0) = failed .invalidType := by decide

/-- V11, V12. -/
theorem test_decode_header :
    answer (onBuffer 0x01 [0x2B, 0x23, 0x45, 0xAA, 0xBB]) = gave 2 11 9029 [] ∧
      answer (onBuffer 0x01 [0xFF, 0xFF, 0xFF]) = gave 15 15 65535 [] := by decide

/-- V14. -/
theorem test_decode_header_short : answer (onBuffer 0x01 [0x25, 0x00]) = failed .truncatedBuffer := by decide

/-- V17, V18. -/
theorem test_type_of :
    answer (onBuffer 0x02 [0x9A]) = some (.done false { hdrType := some 9 }) ∧
      answer (onBuffer 0x02 []) = failed .truncatedBuffer := by decide

-- Pack

/-- V20. -/
theorem test_pack_motion :
    answer (onFields 0x11 3 65535 [1, -1, 2147483647, 0x80000000, 0, 256, -256, 305419896, -305419896]) =
      wrote [0x13, 0xFF, 0xFF, 0, 0, 0, 1, 0xFF, 0xFF, 0xFF, 0xFF, 0x7F, 0xFF, 0xFF, 0xFF, 0x80, 0, 0, 0,
        0, 0, 0, 0, 0, 0, 1, 0, 0xFF, 0xFF, 0xFF, 0, 0x12, 0x34, 0x56, 0x78, 0xED, 0xCB, 0xA9, 0x88] := by decide

/-- V21, S1. -/
theorem test_pack_environmental :
    answer (onFields 0x12 5 120 [2500, 101325, 45, 150]) =
      wrote [0x25, 0, 0x78, 0, 0, 0x09, 0xC4, 0, 1, 0x8B, 0xCD, 0, 0, 0, 0x2D, 0, 0, 0, 0x96] := by decide

/-- V22, V33: the upper halves of the slots are ignored. -/
theorem test_pack_air_quality :
    answer (onFields 0x13 10 4660 [400, -2]) = wrote [0x3A, 0x12, 0x34, 0x01, 0x90, 0xFF, 0xFE] ∧
      answer (onFields 0x13 0 0 [0x12340190, 0xFFFFFFFE]) = wrote [0x30, 0, 0, 0x01, 0x90, 0xFF, 0xFE] := by decide

/-- V24. -/
theorem test_pack_secondary_accel :
    answer (onFields 0x14 1 1 [-1000, 0, 1000]) =
      wrote [0x41, 0, 1, 0xFF, 0xFF, 0xFC, 0x18, 0, 0, 0, 0, 0, 0, 3, 0xE8] := by decide

/-- V25: the time wraps. -/
theorem test_pack_altitude :
    answer (onFields 0x15 15 70000 [-123456]) = wrote [0x5F, 0x11, 0x70, 0xFF, 0xFE, 0x1D, 0xC0] := by decide

/-- V26. -/
theorem test_pack_orientation :
    answer (onFields 0x16 4 4660 [-900, 450, 17999]) =
      wrote [0x64, 0x12, 0x34, 0xFC, 0x7C, 0x01, 0xC2, 0x46, 0x4F] := by decide

/-- V27. -/
theorem test_pack_command : answer (onFields 0x17 0 60 []) = wrote [0x70, 0, 0x3C] := by decide

/-- V31: an embedded terminator is copied. -/
theorem test_pack_info :
    answer (onMessage 2 7 9 [0x4F, 0x4B, 0, 0x48, 0x49, 0x44, 0x44, 0x45, 0x4E]) =
      wrote ([0x82, 0, 7, 0x4F, 0x4B, 0, 0x48, 0x49, 0x44, 0x44, 0x45, 0x4E] ++ List.replicate 291 0) := by decide +kernel

/-- R98 at capacity and one byte over: the last wired byte is in the packet either way, and only the second gives the warning. -/
theorem test_pack_info_truncates :
    answer { onMessage 0 0 299 [] with msg := [(0, 0x41), (298, 0x42)] } =
        wrote ([0x80, 0, 0, 0x41] ++ List.replicate 297 0 ++ [0x42, 0]) ∧
      answer { onMessage 0 0 300 [] with msg := [(0, 0x41), (298, 0x42)] } =
        some (.done true (produced 303 ([0x80, 0, 0, 0x41] ++ List.replicate 297 0 ++ [0x42, 0]))) := by decide +kernel

-- Unpack

/-- V40. -/
theorem test_unpack_motion :
    answer (onBuffer 0x21 [0x13, 0xFF, 0xFF, 0, 0, 0, 1, 0xFF, 0xFF, 0xFF, 0xFF, 0x7F, 0xFF, 0xFF, 0xFF, 0x80, 0, 0, 0,
        0, 0, 0, 0, 0, 0, 1, 0, 0xFF, 0xFF, 0xFF, 0, 0x12, 0x34, 0x56, 0x78, 0xED, 0xCB, 0xA9, 0x88]) =
      gave 1 3 65535 [1, -1, 2147483647, 0x80000000, 0, 256, -256, 305419896, -305419896] := by decide

/-- V41. -/
theorem test_unpack_environmental :
    answer (onBuffer 0x22 [0x25, 0, 0x78, 0, 0, 0x09, 0xC4, 0, 1, 0x8B, 0xCD, 0, 0, 0, 0x2D, 0, 0, 0, 0x96]) =
      gave 2 5 120 [2500, 101325, 45, 150] := by decide

/-- V43, V51: sign extension; an ALTITUDE packet of the same length. -/
theorem test_unpack_air_quality :
    answer (onBuffer 0x23 [0x30, 0, 0, 0x7F, 0xFF, 0x80, 0]) = gave 3 0 0 [0x00007FFF, 0xFFFF8000] ∧
      answer (onBuffer 0x23 [0x5F, 0x11, 0x70, 0xFF, 0xFE, 0x1D, 0xC0]) = failed .typeMismatch := by decide

/-- V44. -/
theorem test_unpack_secondary_accel :
    answer (onBuffer 0x24 [0x41, 0, 1, 0xFF, 0xFF, 0xFC, 0x18, 0, 0, 0, 0, 0, 0, 3, 0xE8]) =
      gave 4 1 1 [-1000, 0, 1000] := by decide

/-- V45, V52. -/
theorem test_unpack_altitude :
    answer (onBuffer 0x25 [0x5F, 0x11, 0x70, 0xFF, 0xFE, 0x1D, 0xC0]) = gave 5 15 4464 [-123456] ∧
      answer (onBuffer 0x25 [0x3A, 0x12, 0x34, 0x01, 0x90, 0xFF, 0xFE]) = failed .typeMismatch := by decide

/-- V46, V60. -/
theorem test_unpack_orientation :
    answer (onBuffer 0x26 [0x64, 0x12, 0x34, 0xFC, 0x7C, 0x01, 0xC2, 0x46, 0x4F]) = gave 6 4 4660 [-900, 450, 17999] ∧
      answer (onBuffer 0x26 [0x64, 0x12, 0x34, 0xFC, 0x7C, 0x01, 0xC2]) = failed .sizeMismatch := by decide

/-- V47, V53, V55, V56: the length is checked before the type. -/
theorem test_unpack_command :
    answer (onBuffer 0x27 [0x70, 0, 0x3C]) = gave 7 0 60 [] ∧ answer (onBuffer 0x27 [0, 0, 0]) = failed .typeMismatch ∧
      answer (onBuffer 0x27 [0x90, 0]) = failed .sizeMismatch ∧
      answer (onBuffer 0x27 [0x90, 0, 0]) = failed .typeMismatch := by decide

/-- V57: the bytes after the first terminator are still there. -/
theorem test_unpack_info :
    answer (onBuffer 0x28 ([0x82, 0, 7, 0x4F, 0x4B, 0, 0x48, 0x49, 0x44, 0x44, 0x45, 0x4E] ++ List.replicate 291 0)) =
      some (.done false
        { hdrType := some 8, hdrFlags := some 2, hdrTime := some 7, infoLen := some 2
          infoBuf := some ([0x4F, 0x4B, 0, 0x48, 0x49, 0x44, 0x44, 0x45, 0x4E] ++ List.replicate 291 0) }) := by
  decide +kernel

/-- V59: an empty message. -/
theorem test_unpack_info_empty :
    answer (onBuffer 0x28 ([0x80, 0, 5] ++ List.replicate 300 0)) =
      some (.done false
        { hdrType := some 8, hdrFlags := some 0, hdrTime := some 5, infoLen := some 0
          infoBuf := some (List.replicate 300 0) }) := by decide +kernel

-- Decode and the packets of format FRAME

/-- S2, V69, V62, V63, V66, V67, V70. -/
theorem test_decode :
    answer (onBuffer 0x30 [0x70, 0, 0x3C]) = gave 7 0 60 [] ∧ answer (onBuffer 0x30 [0x0A, 0x12, 0x34]) = gave 0 10 4660 [] ∧
      answer (onBuffer 0x30 [0xF0]) = failed .unknownFrameType ∧ answer (onBuffer 0x30 []) = failed .truncatedBuffer ∧
      answer (onBuffer 0x30 [0x70, 0]) = failed .truncatedBuffer ∧
      answer (onBuffer 0x30 [0x70, 0, 0x3C, 0]) = failed .sizeMismatch ∧
      answer (onBuffer 0x30 [0, 0, 0, 0]) = failed .sizeMismatch := by decide

/-- V72, V75, V79. -/
theorem test_decode_payloads :
    answer (onBuffer 0x30 [0x3A, 0x12, 0x34, 0x01, 0x90, 0xFF, 0xFE]) = gave 3 10 4660 [400, -2] ∧
      answer (onBuffer 0x30 [0x64, 0x12, 0x34, 0xFC, 0x7C, 0x01, 0xC2, 0x46, 0x4F]) = gave 6 4 4660 [-900, 450, 17999] ∧
      answer (onBuffer 0x30 (0x81 :: List.replicate 303 0)) = failed .sizeMismatch := by decide +kernel

/-- The response an instruction gives, from reset. -/
def delivered (i : Instr) : Option Response :=
  match exec i State.reset with
  | .next s => s.rsp
  | .fault _ => none
  | .refused _ => none

theorem test_frames_without_payload :
    delivered (.frameNull 10 4660) = gave 0 10 4660 [] ∧ delivered (.frameCommand 0 60) = gave 7 0 60 [] := by decide

theorem test_frames_with_words :
    delivered (.frameMotion 3 1 ⟨1, 2, 3, 4, 5, 6, 7, 8, 9⟩) = gave 1 3 1 [1, 2, 3, 4, 5, 6, 7, 8, 9] ∧
      delivered (.frameEnvironmental 5 120 ⟨2500, 101325, 45, 150⟩) = gave 2 5 120 [2500, 101325, 45, 150] ∧
      delivered (.frameSecondaryAccel 1 1 ⟨-1000, 0, 1000⟩) = gave 4 1 1 [-1000, 0, 1000] ∧
      delivered (.frameAltitude 15 4464 ⟨-123456⟩) = gave 5 15 4464 [-123456] := by decide

theorem test_frames_with_halves :
    delivered (.frameAirQuality 0 0 ⟨32767, -32768⟩) = gave 3 0 0 [0x00007FFF, 0xFFFF8000] ∧
      delivered (.frameOrientation 4 4660 ⟨-900, 450, 17999⟩) = gave 6 4 4660 [-900, 450, 17999] := by decide

/-- V58: no terminator. -/
theorem test_frame_info :
    delivered (.frameInfo 0 1 (List.replicate 300 0x58)) =
      some (.done false
        { hdrType := some 8, hdrFlags := some 0, hdrTime := some 1, infoLen := some 300
          infoBuf := some (List.replicate 300 0x58) }) := by decide +kernel

-- Steps

/-- V80, V81, V82: reserved codes. -/
theorem test_reserved_codes :
    answer (onBuffer 0x03 [0x70, 0, 0x3C]) = failed .illegalOp ∧ answer (onBuffer 0x10 []) = failed .illegalOp ∧
      answer (onBuffer 0x20 [0, 0, 0]) = failed .illegalOp := by decide

/-- R73: the eight status codes. -/
theorem test_status_codes :
    [Status.ok, .truncatedBuffer, .sizeMismatch, .unknownFrameType, .typeMismatch, .messageTruncated, .invalidType,
      .illegalOp].map Status.code = [0, 1, 2, 3, 4, 5, 6, 7] := by decide

/-- R155, U9: with `rst` asserted nothing is answered; a request that is not held is refused. -/
theorem test_rst_and_held :
    (match step { State.reset with inp := { rst := true, reqValid := true, held := true, req := onBuffer 0x02 [0x70] } } with
        | .next s => s.rsp
        | .fault _ => failed .illegalOp
        | .refused _ => failed .illegalOp) = none ∧
      (match step { State.reset with inp := { rst := false, reqValid := true, held := false, req := onBuffer 0x02 [0x70] } } with
        | .next _ => false
        | .fault _ => false
        | .refused r => decide (r = .requestNotHeld)) = true := by decide

-- Witnesses: states and operands that meet the hypotheses of each statement, at the boundary of each clause

/-- A state with a request whose buffer is `len` bytes long and begins with `b`, the other bytes 0. -/
def withFirst (len : BitVec 16) (b : Byte) : State :=
  State.reset.present { Request.zero with ibufLen := len, ibuf := Memory.write [] 0 b }

/-- A state with a request for encode_header. -/
def withType (t : BitVec 8) : State := State.reset.present (onHeader t 11 9029)

/-- A state with a request that carries a message of `len` bytes, its wires all `A`. -/
def withMessage (len : BitVec 16) : State := State.reset.present (onMessage 0 0 len (List.replicate 299 0x41))

theorem test_witness_EncodeHeaderWritesTheHeader :
    (withType 15).inp.req.typeIn.toNat ≤ 15 ∧ 15 < (withType 16).inp.req.typeIn.toNat := by decide

theorem test_witness_DecodeHeaderReadsTheHeader :
    3 ≤ (withFirst 3 0x2B).inp.req.ibufLen.toNat ∧ (withFirst 2 0x2B).inp.req.ibufLen.toNat < 3 := by decide

theorem test_witness_TypeOfPeeksTheNibble :
    1 ≤ (withFirst 1 0x9A).inp.req.ibufLen.toNat ∧ (withFirst 0 0x9A).inp.req.ibufLen.toNat = 0 := by decide

theorem test_witness_HeaderRoundTrips_there :
    (withType 15).inp.req.typeIn.toNat ≤ 15 ∧ (withFirst 303 0x81).inp.req.wf = true := by decide

theorem test_witness_HeaderRoundTrips_back :
    (withFirst 3 0xF1).inp.req.ibufLen.toNat = 3 ∧
      ∃ (r : Results) (u : State), exec .decodeHeader (withFirst 3 0xF1) = answered (withFirst 3 0xF1) (.done false r) ∧
        r.hdrType = some (BitVec.ofNat 4 u.inp.req.typeIn.toNat) ∧ u.inp.req.typeIn.toNat ≤ 15 ∧
        r.hdrFlags = some (BitVec.ofNat 4 u.inp.req.flagsIn.toNat) ∧
        r.hdrTime = some (BitVec.ofNat 16 u.inp.req.timeIn.toNat) :=
  ⟨rfl, _, State.reset.present (onHeader 15 0xA1 65536), rfl, rfl, by decide, rfl, rfl⟩

theorem test_witness_UnassignedTypesPassTheHeaderCodecOnly :
    9 ≤ typeNibble (withFirst 3 0x90).inp.req ∧ 3 ≤ (withFirst 3 0x90).inp.req.ibufLen.toNat ∧
      unpackOf 7 = some .unpackCommand ∧ (withFirst 3 0x90).inp.req.ibufLen.toNat = lengthOf 7 ∧
      unpackOf 8 = some .unpackInfo ∧ (withFirst 3 0x90).inp.req.ibufLen.toNat ≠ lengthOf 8 := by decide

theorem test_witness_PackCommandIsTheHeaderAlone :
    (State.reset.present (onHeader 7 0 60)).inp.req.typeIn = 7 ∧
      (State.reset.present (onHeader 7 0 60)).inp.req.flagsIn = (State.reset.present (onFields 0x17 0 60 [])).inp.req.flagsIn ∧
      (State.reset.present (onHeader 7 0 60)).inp.req.timeIn = (State.reset.present (onFields 0x17 0 60 [])).inp.req.timeIn := by
  decide

/-- The last message byte and the first pad byte, for a message of 299 bytes; for a longer one the same two indices. -/
theorem test_witness_PackInfoCopiesAndPads :
    298 < min (withMessage 299).inp.req.msgLen.toNat 299 ∧ min (withMessage 299).inp.req.msgLen.toNat 299 ≤ 299 ∧
      298 < min (withMessage 300).inp.req.msgLen.toNat 299 ∧ min (withMessage 0).inp.req.msgLen.toNat 299 ≤ 0 := by decide +kernel

theorem test_witness_OutputLengthIsConstant :
    (∃ t r, exec .packAltitude State.reset = .next t ∧ t.results = some r) ∧
      ∃ t r, exec .encodeHeader (withType 15) = .next t ∧ t.results = some r :=
  ⟨⟨_, _, rfl, rfl⟩, _, _, rfl, rfl⟩

/-- A byte space loaded with equal bytes reads as that byte. -/
theorem read_replicate {n j : Nat} (h : j < n) (b : Byte) : Memory.read (Memory.load [] 0 (List.replicate n b)) j = b := by
  rw [Memory.read_load (n := n) _ rfl (by simp), if_pos (by simp [h])]
  simp [List.getD, h]

theorem test_witness_InfoTruncationIsObservable :
    (withFirst 303 0x81).inp.req.wf = true ∧ (withMessage 299).inp.req.msgLen.toNat = 299 ∧
      (withMessage 300).inp.req.msgLen.toNat = 300 ∧
      ∀ len j, j < 299 → (withMessage len).inp.req.msg.read j ≠ 0 := by
  refine ⟨by decide, rfl, rfl, fun len j hj => ?_⟩
  have h := read_replicate (n := 299) hj 0x41
  simp only [withMessage, State.present_req, onMessage]
  rw [h]
  decide

/-- The three clauses of an unpack operation of length `len` and type nibble `k`: one byte short, the wrong nibble, the packet. -/
def unpackClauses (len k : Nat) : Bool :=
  decide ((withFirst (BitVec.ofNat 16 (len - 1)) 0).inp.req.ibufLen.toNat ≠ len) &&
    decide ((withFirst (BitVec.ofNat 16 len) (BitVec.ofNat 8 (16 * (k - 1) + 15))).inp.req.ibufLen.toNat = len) &&
    decide (typeNibble (withFirst (BitVec.ofNat 16 len) (BitVec.ofNat 8 (16 * (k - 1) + 15))).inp.req ≠ k) &&
    decide ((withFirst (BitVec.ofNat 16 len) (BitVec.ofNat 8 (16 * k))).inp.req.ibufLen.toNat = len) &&
    decide (typeNibble (withFirst (BitVec.ofNat 16 len) (BitVec.ofNat 8 (16 * k))).inp.req = k)

theorem test_witness_UnpackMotionReadsThePacket : unpackClauses 39 1 = true := by decide
theorem test_witness_UnpackEnvironmentalReadsThePacket : unpackClauses 19 2 = true := by decide
theorem test_witness_UnpackAirQualityReadsThePacket : unpackClauses 7 3 = true := by decide
theorem test_witness_UnpackSecondaryAccelReadsThePacket : unpackClauses 15 4 = true := by decide
theorem test_witness_UnpackAltitudeReadsThePacket : unpackClauses 7 5 = true := by decide
theorem test_witness_UnpackOrientationReadsThePacket : unpackClauses 9 6 = true := by decide
theorem test_witness_UnpackCommandIsTheHeaderAlone : unpackClauses 3 7 = true := by decide
theorem test_witness_UnpackInfoReadsThePacket : unpackClauses 303 8 = true := by decide

theorem test_witness_UnpackEnforcesTheSize :
    unpackOf 1 = some .unpackMotion ∧ (withFirst 38 0x10).inp.req.ibufLen.toNat + 1 = lengthOf 1 ∧
      (withFirst 40 0x10).inp.req.ibufLen.toNat = lengthOf 1 + 1 ∧ (withFirst 0 0).inp.req.ibufLen.toNat ≠ lengthOf 1 := by
  decide

theorem test_witness_UnpackGuardsTheType :
    unpackOf 7 = some .unpackCommand ∧ (withFirst 3 0x60).inp.req.ibufLen.toNat = lengthOf 7 ∧
      typeNibble (withFirst 3 0x60).inp.req ≠ 7 ∧ (withFirst 0 0).inp.req.wf = true ∧
      (∃ bytes, exec .packAltitude State.reset = answered State.reset (.done false (produced 7 bytes))) ∧
      ∃ bytes, exec .packAirQuality State.reset = answered State.reset (.done false (produced 7 bytes)) :=
  ⟨rfl, rfl, by decide, rfl, ⟨_, rfl⟩, _, rfl⟩

theorem test_witness_PackAndUnpackAreInverse_there :
    packOf 8 = some .packInfo ∧ unpackOf 8 = some .unpackInfo ∧ (withFirst 303 0x81).inp.req.wf = true := by decide

/-- A packet without INFO payload, and its fields presented again. -/
theorem test_witness_PackAndUnpackAreInverse_back :
    let s := State.reset.present (onBuffer 0x25 [0x5F, 0x11, 0x70, 0xFF, 0xFE, 0x1D, 0xC0])
    let r : Results := { hdrType := some 5, hdrFlags := some 15, hdrTime := some 4464, x := [-123456] }
    packOf 5 = some .packAltitude ∧ unpackOf 5 = some .unpackAltitude ∧
      exec .unpackAltitude s = answered s (.done false r) ∧ PaddedWithZeros r ∧
      Presents (State.reset.present (onFields 0 15 70000 [-123456])).inp.req r := by
  refine ⟨rfl, rfl, rfl, nofun, rfl, rfl, ?_, nofun⟩
  intro n v h
  match n, h with
  | ⟨0, _⟩, h => exact Option.some.inj h
  | ⟨k + 1, _⟩, h => cases k <;> cases h

/-- An INFO packet whose payload is all terminators, and the empty message presented again. -/
theorem test_witness_PackAndUnpackAreInverse_back_info :
    let s := withFirst 303 0x80
    let r : Results :=
      { hdrType := some 8, hdrFlags := some 0, hdrTime := some 0, infoLen := some 0, infoBuf := some (List.replicate 300 0) }
    exec .unpackInfo s = answered s (.done false r) ∧ PaddedWithZeros r ∧
      Presents (State.reset.present (onMessage 0 0 0 [])).inp.req r := by
  have h := unpack_of_match (t := .info) (s := withFirst 303 0x80) (by decide) (by decide)
  have hr : Results.ofPacket (Packet.read .info (withFirst 303 0x80).inp.req.ibuf.read) =
      { hdrType := some 8, hdrFlags := some 0, hdrTime := some 0, infoLen := some 0
        infoBuf := some (List.replicate 300 0) } := by decide +kernel
  refine ⟨h.trans (by rw [hr]; rfl), ?_, rfl, rfl, nofun, ?_⟩
  · intro buf hb
    obtain rfl := Option.some.inj hb
    refine ⟨0, by decide, rfl, fun j _ h2 => ?_⟩
    rw [List.getElem?_replicate, if_pos h2]
  · intro buf hb
    exact ⟨rfl, by decide, fun j hj => absurd hj (by simp [onMessage])⟩

theorem test_witness_DecodeSelectsByTheNibble :
    (withFirst 0 0).inp.req.ibufLen.toNat = 0 ∧
      (1 ≤ (withFirst 1 0x90).inp.req.ibufLen.toNat ∧ 8 < typeNibble (withFirst 1 0x90).inp.req) ∧
      (1 ≤ (withFirst 302 0x8F).inp.req.ibufLen.toNat ∧ typeNibble (withFirst 302 0x8F).inp.req ≤ 8 ∧
        (withFirst 302 0x8F).inp.req.ibufLen.toNat < lengthOf (typeNibble (withFirst 302 0x8F).inp.req)) ∧
      (typeNibble (withFirst 304 0x80).inp.req ≤ 8 ∧
        lengthOf (typeNibble (withFirst 304 0x80).inp.req) < (withFirst 304 0x80).inp.req.ibufLen.toNat) ∧
      (unpackOf (typeNibble (withFirst 303 0x80).inp.req) = some .unpackInfo ∧
        (withFirst 303 0x80).inp.req.ibufLen.toNat = lengthOf (typeNibble (withFirst 303 0x80).inp.req)) ∧
      typeNibble (withFirst 3 0x0F).inp.req = 0 ∧ (withFirst 3 0x0F).inp.req.ibufLen.toNat = 3 := by decide

theorem test_witness_DecodeOfNullIsHeaderOnly :
    typeNibble (withFirst 2 0x0F).inp.req = 0 ∧ (withFirst 2 0x0F).inp.req.ibufLen.toNat < 3 ∧
      typeNibble (withFirst 4 0).inp.req = 0 ∧ 3 < (withFirst 4 0).inp.req.ibufLen.toNat ∧
      typeNibble (withFirst 3 0x0F).inp.req = 0 ∧ (withFirst 3 0x0F).inp.req.ibufLen.toNat = 3 := by decide

theorem test_witness_DecodeRejectsUnknownTypes :
    1 ≤ (withFirst 1 0x90).inp.req.ibufLen.toNat ∧ 0x90 ≤ ((withFirst 1 0x90).inp.req.ibuf.read 0).toNat ∧
      (withFirst 0 0x90).inp.req.ibufLen.toNat = 0 := by decide

theorem test_witness_DecodeInvertsPack :
    packOf 1 = some .packMotion ∧ packOf 8 = some .packInfo ∧ (withFirst 303 0x81).inp.req.wf = true := by decide

theorem test_witness_DecodeNeverGivesTypeMismatch :
    (∃ t, exec .decode (withFirst 3 0x70) = .next t) ∧
      ∃ t, exec .unpackCommand (withFirst 3 0x90) = .next t ∧ t.status = some .typeMismatch :=
  ⟨⟨_, rfl⟩, _, rfl, rfl⟩

theorem test_witness_DecodeEqualsTheComposition :
    1 ≤ (withFirst 39 0x10).inp.req.ibufLen.toNat ∧ unpackOf (typeNibble (withFirst 39 0x10).inp.req) = some .unpackMotion ∧
      lengthOf (typeNibble (withFirst 39 0x10).inp.req) ≤ (withFirst 39 0x10).inp.req.ibufLen.toNat := by decide

/-- With a terminator at the last index, and with none. -/
theorem test_witness_FramesDeliverTheirFields :
    (List.replicate 299 (0x58 : Byte) ++ [0]).length = 300 ∧ (List.replicate 300 (0x58 : Byte)).length = 300 ∧
      (List.replicate 299 (0x58 : Byte) ++ [0])[298]? ≠ some 0 ∧ (List.replicate 299 (0x58 : Byte) ++ [0])[299]? = some 0 := by
  decide +kernel

theorem test_witness_FramesFollowTheirLayouts : (List.replicate 300 (0x58 : Byte)).length = 300 ∧ 299 < 300 := by
  decide +kernel

theorem test_witness_DecodeInvertsEncode :
    Instr.wf .packInfo = true ∧ Instr.wf (.frameMotion 15 65535 ⟨1, -1, 0, 0, 0, 0, 0, 0, 0⟩) = true ∧
      Instr.wf (.frameInfo 15 65535 (List.replicate 300 0xFF)) = true := by decide +kernel

theorem test_witness_EncodeInvertsDecode :
    decode (.op 0x30) = .ok .decode ∧ decode (.packet [0x7F, 0xFF, 0xFF]) = .ok (.frameCommand 15 65535) := ⟨rfl, rfl⟩

theorem test_witness_TruncatedBufferIsRaisedExactly :
    ((0x01, .decodeHeader) ∈ operations ∧ ∃ t, exec .decodeHeader (withFirst 2 0) = .next t ∧ t.status = some .truncatedBuffer) ∧
      ((0x02, .typeOf) ∈ operations ∧ ∃ t, exec .typeOf (withFirst 0 0) = .next t ∧ t.status = some .truncatedBuffer) ∧
      ((0x30, .decode) ∈ operations ∧ ∃ t, exec .decode (withFirst 0 0) = .next t ∧ t.status = some .truncatedBuffer) ∧
      ∃ t, exec .decode (withFirst 302 0x80) = .next t ∧ t.status = some .truncatedBuffer :=
  ⟨⟨by decide, _, rfl, rfl⟩, ⟨by decide, _, rfl, rfl⟩, ⟨by decide, _, rfl, rfl⟩, _, rfl, rfl⟩

theorem test_witness_SizeMismatchIsRaisedExactly :
    ((0x21, .unpackMotion) ∈ operations ∧ ∃ t, exec .unpackMotion (withFirst 38 0x10) = .next t ∧ t.status = some .sizeMismatch) ∧
      ((0x30, .decode) ∈ operations ∧ ∃ t, exec .decode (withFirst 4 0x70) = .next t ∧ t.status = some .sizeMismatch) :=
  ⟨⟨by decide, _, rfl, rfl⟩, by decide, _, rfl, rfl⟩

theorem test_witness_UnknownFrameTypeIsRaisedExactly :
    (0x30, .decode) ∈ operations ∧ ∃ t, exec .decode (withFirst 1 0x90) = .next t ∧ t.status = some .unknownFrameType :=
  ⟨by decide, _, rfl, rfl⟩

theorem test_witness_TypeMismatchIsRaisedExactly :
    (0x27, .unpackCommand) ∈ operations ∧
      ∃ t, exec .unpackCommand (withFirst 3 0x6F) = .next t ∧ t.status = some .typeMismatch :=
  ⟨by decide, _, rfl, rfl⟩

theorem test_witness_InvalidTypeIsRaisedExactly :
    (0x00, .encodeHeader) ∈ operations ∧ ∃ t, exec .encodeHeader (withType 16) = .next t ∧ t.status = some .invalidType :=
  ⟨by decide, _, rfl, rfl⟩

theorem test_witness_MessageTruncatedIsAWarning :
    (0x18, .packInfo) ∈ operations ∧
      ∃ t, exec .packInfo (State.reset.present (onMessage 0 0 300 [])) = .next t ∧ t.status = some .messageTruncated :=
  ⟨by decide, _, rfl, rfl⟩

theorem test_witness_StatusesFollowTheTable :
    (0x30, .decode) ∈ operations ∧ Status.unknownFrameType ∈ statuses .decode ∧ ∃ t, exec .decode State.reset = .next t :=
  ⟨by decide, by decide, _, rfl⟩

/-- Requests that differ only in what the operation does not read: upper halves of slots, upper bits of flags and time, the bytes at
and after the length, the message bytes after the message. -/
theorem test_witness_UnreadPortsAreIgnored :
    SameOperands .packAirQuality (onFields 0x13 0x0A 1 [0x12340190, -2]) (onFields 0x13 0xFA 65537 [0x190, 0xFFFE]) ∧
      SameOperands .decode (onBuffer 0x30 [0x70, 0, 60]) { onBuffer 0x30 [0x70, 0, 60, 9] with ibufLen := 3 } ∧
      SameOperands .packInfo (onMessage 0 0 1 [0x41]) (onMessage 0 0 1 [0x41, 0x42]) ∧
      SameOperands .encodeHeader (onHeader 7 0xA1 0) (onHeader 7 1 65536) := by
  refine ⟨⟨⟨rfl, rfl⟩, by unfold sameSlots; decide⟩, ⟨rfl, by decide⟩, ⟨⟨rfl, rfl⟩, rfl, ?_⟩, rfl, rfl, rfl⟩
  intro a h _
  obtain rfl : a = 0 := by simpa [onMessage] using h
  rfl

theorem test_witness_LongBuffersAreNotRead :
    (∀ a, a < 303 → (withFirst 304 0x81).inp.req.ibuf.read a =
        (State.reset.present { (withFirst 304 0x81).inp.req with ibuf := [(0, 0x81), (303, 1)] }).inp.req.ibuf.read a) ∧
      1 ≤ (withFirst 1 0x81).inp.req.ibufLen.toNat ∧ 3 ≤ (withFirst 3 0x81).inp.req.ibufLen.toNat ∧
      unpackOf 8 = some .unpackInfo ∧ (withFirst 304 0x81).inp.req.ibufLen.toNat ≠ lengthOf 8 := by decide +kernel

/-- A request of op `op`, being served. -/
def serving (op : BitVec 6) : State := State.reset.present (onBuffer op [0x70, 0, 0x3C])

theorem test_witness_StepRunsTheDecodedOperation :
    Serving (serving 0x30) ∧ decodeOp (serving 0x30).inp.req.op = .ok .decode := ⟨⟨rfl, rfl, rfl⟩, rfl⟩

theorem test_witness_StepRunsTheReceivedPacket :
    Serving (serving 0x30) ∧ (serving 0x30).inp.req.op = 0x30 ∧ Instr.wf (.frameCommand 0 60) = true ∧
      encode (.frameCommand 0 60) = .packet [0x70, 0, 0x3C] ∧ (serving 0x30).inp.req.ibufLen.toNat = 3 ∧
      ∀ a, a < 3 → [0x70, 0, 0x3C][a]? = some ((serving 0x30).inp.req.ibuf.read a) :=
  ⟨⟨rfl, rfl, rfl⟩, rfl, rfl, rfl, rfl, by decide⟩

theorem test_witness_ReservedCodesAreIllegal :
    Serving (serving 0x03) ∧ ∀ p ∈ operations, p.1 ≠ (serving 0x03).inp.req.op := ⟨⟨rfl, rfl, rfl⟩, by decide⟩

theorem test_witness_EveryRequestGetsOneResponse : Serving (serving 0x3F) ∧ Serving (serving 0x27) :=
  ⟨⟨rfl, rfl, rfl⟩, rfl, rfl, rfl⟩

theorem test_witness_StepsWithoutARequestGiveNoResponse :
    ({ State.reset with inp := { (serving 0x27).inp with rst := true } } : State).inp.rst = true ∧
      State.reset.inp.reqValid = false ∧
      ({ State.reset with inp := { (serving 0x27).inp with held := false } } : State).inp.held = false ∧
      ∃ t, step (serving 0x27) = .next t ∧ t.rspValid = true :=
  ⟨rfl, rfl, rfl, _, rfl, rfl⟩

theorem test_witness_ResetLeavesNothingToDependOn :
    ({ State.reset with inp := { (serving 0x27).inp with rst := true } } : State).inp.rst = true ∧
      State.reset.inp.reqValid = false ∧ State.reset.rspValid = false := ⟨rfl, rfl, rfl⟩

/-- Two states that present one request after different histories. -/
theorem test_witness_ResponseDependsOnTheRequestOnly :
    Serving (serving 0x27) ∧ Serving { serving 0x27 with trace := [(Request.zero, .error .illegalOp)] } ∧
      (serving 0x27).inp.req = ({ serving 0x27 with trace := [(Request.zero, .error .illegalOp)] } : State).inp.req :=
  ⟨⟨rfl, rfl, rfl⟩, ⟨rfl, rfl, rfl⟩, rfl⟩

/-- A run of three drives: a request served, one abandoned under `rst`, one served. -/
def threeDrives : List Drive :=
  [(serving 0x02).inp, { (serving 0x27).inp with rst := true, held := false }, (serving 0x30).inp]

theorem test_witness_ARunAnswersEveryRequestInTurn :
    (∀ d ∈ threeDrives, d.serves = true → d.held = true) ∧ threeDrives.getLast? = some (serving 0x30).inp ∧
      (requestsOf threeDrives).length = 2 := by decide

/-- S2 after a type_of of the same buffer: the run ends with the response of its last request, and an observation of two pairs. -/
theorem test_run :
    (match runOn threeDrives State.reset with
      | .next t => decide (t.rsp = gave 7 0 60 [] ∧ t.trace.length = 2 ∧ t.inp.reqValid = false)
      | .fault _ => false
      | .refused _ => false) = true := by decide

/-- R155: asserting `rst` withdraws the response on the ports. -/
theorem test_rst_withdraws :
    let s : State := { serving 0x27 with rsp := gave 7 0 60 [] }
    s.rspValid = true ∧ (s.drive { s.inp with rst := true }).rspValid = false := ⟨rfl, rfl⟩

/-- The state after the first step of a run: it meets the four invariants, with an observation that is not empty. -/
def afterOne : State :=
  { State.reset with
    inp := { rst := false, reqValid := true, held := true, req := onBuffer 0x27 [0x70, 0, 0x3C] }
    rsp := gave 7 0 60 []
    trace := [(onBuffer 0x27 [0x70, 0, 0x3C],
      .done false { hdrType := some 7, hdrFlags := some 0, hdrTime := some 60 })] }

theorem test_witness_StepKeepsThePortsCanonical : PortsCanonical afterOne ∧ (∃ t, step afterOne = .next t) ∧ (serving 0x30).inp.req.wf = true :=
  ⟨⟨by decide, by decide⟩, ⟨_, rfl⟩, by decide⟩

theorem test_witness_StepKeepsTheResponsesInShape : ResponsesFit afterOne ∧ ∃ t, step afterOne = .next t := by
  have h : ResponseFits (.done false { hdrType := some 7, hdrFlags := some 0, hdrTime := some 60 }) :=
    ⟨⟨rfl, rfl, Nat.zero_le _, fun h => absurd rfl h, fun _ => rfl, rfl⟩, nofun⟩
  refine ⟨⟨?_, ?_⟩, _, rfl⟩
  · rintro _ ⟨⟩; exact h
  · intro p hp
    obtain rfl := List.mem_singleton.1 hp
    exact h

theorem test_witness_StepKeepsTheObservationHistoryFree : HistoryFree afterOne ∧ ∃ t, step afterOne = .next t := by
  refine ⟨?_, _, rfl⟩
  intro p hp
  obtain rfl := List.mem_singleton.1 hp
  exact ⟨_, rfl, rfl⟩

theorem test_witness_StepKeepsTheResponseTheLastObserved : ResponseIsLast afterOne ∧ ∃ t, step afterOne = .next t := by
  refine ⟨?_, _, rfl⟩
  rintro _ ⟨⟩
  exact ⟨_, rfl⟩

end Sys2Proof.Tests
end

section
/-!
The response of every instruction as a function of the request alone (R13, R159), and with it what the operations read of `ibuf` (R49) and
the lengths they write to `obuf` (R47).
-/

namespace Sys2Proof.Machine

-- The response of each shared procedure

/-- What a pack operation answers (R90). -/
def packResponse (truncated : Bool) (p : Payload) (q : Request) : Response :=
  .done truncated (Results.ofBytes (q.packet p).bytes)

/-- What an unpack operation answers (R105). -/
def unpackResponse (t : FrameType) (q : Request) : Response :=
  if q.ibufLen.toNat ≠ t.len then .error .sizeMismatch
  else if hiNibble (q.ibuf.read 0) ≠ t.nibble then .error .typeMismatch
  else .done false (Results.ofPacket (Packet.read t q.ibuf.read))

/-- What a delivered packet answers (R21 to R23). -/
def packetResponse (p : Packet) : Response := .done false (Results.ofPacket p)

/-- What `decode` answers (R121, R122). -/
def decodeResponse (q : Request) : Response :=
  match decodePacket q.ibufLen.toNat q.ibuf.read with
  | .error e => .error e
  | .ok p => packetResponse p

/-- What `encode_header` answers (R81). -/
def encodeHeaderResponse (q : Request) : Response :=
  if 15 < q.typeIn.toNat then .error .invalidType
  else .done false (Results.ofBytes (headerBytes (q.typeIn.extractLsb' 0 4) q.flags q.time))

/-- What `decode_header` answers (R82). -/
def decodeHeaderResponse (q : Request) : Response :=
  if q.ibufLen.toNat < 3 then .error .truncatedBuffer
  else
    .done false
      { hdrType := some (hiNibble (q.ibuf.read 0))
        hdrFlags := some (loNibble (q.ibuf.read 0))
        hdrTime := some (get16 q.ibuf.read 1) }

/-- What `type_of` answers (R83). -/
def typeOfResponse (q : Request) : Response :=
  if q.ibufLen.toNat < 1 then .error .truncatedBuffer
  else .done false { hdrType := some (hiNibble (q.ibuf.read 0)) }

/-- What a received INFO packet answers (R64, R121). -/
def frameInfoResponse (flags : Nibble) (time : Half) (buf : List Byte) : Response :=
  if buf.length < Config.infoSize then .error .truncatedBuffer
  else if Config.infoSize < buf.length then .error .sizeMismatch
  else packetResponse ⟨flags, time, .info buf⟩

theorem unpack_eq (t : FrameType) (s : State) :
    unpack t s = .next (s.respond (unpackResponse t s.inp.req)) := by
  unfold unpack unpackResponse
  split_ifs <;> rfl

theorem execDecode_eq_decodeResponse (s : State) :
    execDecode s = .next (s.respond (decodeResponse s.inp.req)) := execDecode_eq s

theorem execEncodeHeader_eq (s : State) :
    execEncodeHeader s = .next (s.respond (encodeHeaderResponse s.inp.req)) := by
  unfold execEncodeHeader encodeHeaderResponse
  split_ifs <;> rfl

theorem execDecodeHeader_eq (s : State) :
    execDecodeHeader s = .next (s.respond (decodeHeaderResponse s.inp.req)) := by
  unfold execDecodeHeader decodeHeaderResponse
  split_ifs <;> rfl

theorem execTypeOf_eq (s : State) : execTypeOf s = .next (s.respond (typeOfResponse s.inp.req)) := by
  unfold execTypeOf typeOfResponse
  split_ifs <;> rfl

theorem execFrameInfo_eq (flags : Nibble) (time : Half) (buf : List Byte) (s : State) :
    execFrameInfo flags time buf s = .next (s.respond (frameInfoResponse flags time buf)) := by
  unfold execFrameInfo frameInfoResponse
  split_ifs <;> rfl

-- The response of each instruction

/-- What an instruction answers to a request: the block keeps nothing, so the request is all it depends on (R13). -/
def responseTo (i : Instr) (q : Request) : Response :=
  match i with
  | .encodeHeader => encodeHeaderResponse q
  | .decodeHeader => decodeHeaderResponse q
  | .typeOf => typeOfResponse q
  | .packMotion => packResponse false (.motion q.motion) q
  | .packEnvironmental => packResponse false (.environmental q.environmental) q
  | .packAirQuality => packResponse false (.airQuality q.airQuality) q
  | .packSecondaryAccel => packResponse false (.secondaryAccel q.secondaryAccel) q
  | .packAltitude => packResponse false (.altitude q.altitude) q
  | .packOrientation => packResponse false (.orientation q.orientation) q
  | .packCommand => packResponse false .command q
  | .packInfo => packResponse q.msgCut (.info q.infoPayload) q
  | .unpackMotion => unpackResponse .motion q
  | .unpackEnvironmental => unpackResponse .environmental q
  | .unpackAirQuality => unpackResponse .airQuality q
  | .unpackSecondaryAccel => unpackResponse .secondaryAccel q
  | .unpackAltitude => unpackResponse .altitude q
  | .unpackOrientation => unpackResponse .orientation q
  | .unpackCommand => unpackResponse .command q
  | .unpackInfo => unpackResponse .info q
  | .decode => decodeResponse q
  | .frameNull flags time => packetResponse ⟨flags, time, .null⟩
  | .frameMotion flags time p => packetResponse ⟨flags, time, .motion p⟩
  | .frameEnvironmental flags time p => packetResponse ⟨flags, time, .environmental p⟩
  | .frameAirQuality flags time p => packetResponse ⟨flags, time, .airQuality p⟩
  | .frameSecondaryAccel flags time p => packetResponse ⟨flags, time, .secondaryAccel p⟩
  | .frameAltitude flags time p => packetResponse ⟨flags, time, .altitude p⟩
  | .frameOrientation flags time p => packetResponse ⟨flags, time, .orientation p⟩
  | .frameCommand flags time => packetResponse ⟨flags, time, .command⟩
  | .frameInfo flags time buf => frameInfoResponse flags time buf

/-- What an instruction does, said once: it answers `responseTo` of the presented request, and changes nothing else. -/
theorem exec_eq (i : Instr) (s : State) : exec i s = .next (s.respond (responseTo i s.inp.req)) := by
  cases i with
  | encodeHeader => exact execEncodeHeader_eq s
  | decodeHeader => exact execDecodeHeader_eq s
  | typeOf => exact execTypeOf_eq s
  | decode => exact execDecode_eq_decodeResponse s
  | unpackMotion | unpackEnvironmental | unpackAirQuality | unpackSecondaryAccel | unpackAltitude | unpackOrientation
  | unpackCommand | unpackInfo => exact unpack_eq _ s
  | frameInfo flags time buf => exact execFrameInfo_eq flags time buf s
  | _ => rfl

theorem exec_next {i : Instr} {s t : State} (h : exec i s = .next t) : t = s.respond (responseTo i s.inp.req) := by
  rw [exec_eq] at h
  cases h
  rfl

-- The lengths written to `obuf` (R47)

/-- The results drive `obuf` with exactly `n` bytes (R23). -/
def Results.DrivesOutput (n : Nat) (r : Results) : Prop :=
  r.obufLen = some (BitVec.ofNat 9 n) ∧ ∃ bytes, r.obuf = some bytes ∧ bytes.length = n

theorem Results.ofBytes_drivesOutput (bytes : List Byte) : (Results.ofBytes bytes).DrivesOutput bytes.length :=
  ⟨rfl, bytes, rfl, rfl⟩

/-- Every result of a pack operation has its kind's `LEN` bytes. -/
theorem packResponse_drivesOutput {w : Bool} {p : Payload} {q : Request} {r : Results} (hp : p.wf = true)
    (h : (packResponse w p q).results = some r) : r.DrivesOutput p.type.len := by
  cases h
  have hl : (q.packet p).bytes.length = p.type.len := Packet.bytes_length hp
  exact hl ▸ Results.ofBytes_drivesOutput _

/-- Every result of `encode_header` has the 3 bytes of a header. -/
theorem encodeHeaderResponse_drivesOutput {q : Request} {r : Results}
    (h : (encodeHeaderResponse q).results = some r) : r.DrivesOutput 3 := by
  unfold encodeHeaderResponse at h
  split at h
  · cases h
  · cases h
    exact Results.ofBytes_drivesOutput _

theorem Request.infoPayload_wf (q : Request) : Payload.wf (.info q.infoPayload) = true := by
  simp [Payload.wf]

-- What is read of `ibuf` (R49)

/-- The packet decoder reads no byte at or above 303, however long the buffer is: a longer buffer is rejected by its length. -/
theorem decodePacket_congr_wired {len : Nat} {rd rd' : Nat → Byte} (h : ∀ a, a < 303 → rd a = rd' a) :
    decodePacket len rd = decodePacket len rd' := by
  have h0 : rd 0 = rd' 0 := h 0 (by decide)
  cases hd : decodePacket len rd' with
  | error e =>
    rw [decodePacket_error] at hd ⊢
    rwa [h0]
  | ok p =>
    obtain ⟨t, ht, hl, rfl⟩ := decodePacket_ok.1 hd
    have hr : Packet.read t rd = Packet.read t rd' :=
      Packet.read_congr fun a ha => h a (ha.trans_le t.len_le)
    exact decodePacket_ok.2 ⟨t, by rwa [h0], hl, hr.symm⟩

theorem decodeResponse_congr {q q' : Request} (hl : q.ibufLen = q'.ibufLen)
    (h : ∀ a, a < 303 → q.ibuf.read a = q'.ibuf.read a) : decodeResponse q = decodeResponse q' := by
  unfold decodeResponse
  rw [hl, decodePacket_congr_wired h]

theorem unpackResponse_congr {t : FrameType} {q q' : Request} (hl : q.ibufLen = q'.ibufLen)
    (h : ∀ a, a < 303 → q.ibuf.read a = q'.ibuf.read a) : unpackResponse t q = unpackResponse t q' := by
  unfold unpackResponse
  rw [hl, h 0 (by decide), Packet.read_congr fun a ha => h a (ha.trans_le t.len_le)]

/-- From one byte on, `type_of` completes with the type nibble of byte 0. -/
theorem typeOfResponse_of_le {q : Request} (h : 1 ≤ q.ibufLen.toNat) :
    typeOfResponse q = .done false { hdrType := some (hiNibble (q.ibuf.read 0)) } :=
  if_neg (by omega)

/-- From three bytes on, `decode_header` completes with the header in bytes 0 to 2. -/
theorem decodeHeaderResponse_of_le {q : Request} (h : 3 ≤ q.ibufLen.toNat) :
    decodeHeaderResponse q =
      .done false
        { hdrType := some (hiNibble (q.ibuf.read 0))
          hdrFlags := some (loNibble (q.ibuf.read 0))
          hdrTime := some (q.ibuf.read 1 ++ q.ibuf.read 2) } :=
  if_neg (by omega)

/-- No instruction reads a byte of `ibuf` at or above 303. -/
theorem responseTo_congr_ibuf (i : Instr) {q : Request} {m : Memory}
    (h : ∀ a, a < 303 → q.ibuf.read a = m.read a) : responseTo i q = responseTo i { q with ibuf := m } := by
  cases i with
  | decodeHeader =>
    simp only [responseTo, decodeHeaderResponse, get16, h 0 (by decide), h 1 (by decide), h 2 (by decide)]
  | typeOf => simp only [responseTo, typeOfResponse, h 0 (by decide)]
  | decode => exact decodeResponse_congr rfl h
  | unpackMotion | unpackEnvironmental | unpackAirQuality | unpackSecondaryAccel | unpackAltitude | unpackOrientation
  | unpackCommand | unpackInfo => exact unpackResponse_congr rfl h
  | _ => rfl

-- The kinds and their unpack operations (R71)

/-- An unpack operation is the common procedure at the frame type whose length `lengthOf` gives. -/
theorem exec_of_unpackOf {k : Nat} {i : Instr} (h : Safety.unpackOf k = some i) :
    ∃ t : FrameType, Safety.lengthOf k = t.len ∧ ∀ s, exec i s = unpack t s := by
  unfold Safety.unpackOf at h
  split at h <;> cases h
  exacts [⟨.motion, rfl, fun _ => rfl⟩, ⟨.environmental, rfl, fun _ => rfl⟩, ⟨.airQuality, rfl, fun _ => rfl⟩,
    ⟨.secondaryAccel, rfl, fun _ => rfl⟩, ⟨.altitude, rfl, fun _ => rfl⟩, ⟨.orientation, rfl, fun _ => rfl⟩,
    ⟨.command, rfl, fun _ => rfl⟩, ⟨.info, rfl, fun _ => rfl⟩]

/-- Every frame type but NULL has an unpack operation. -/
theorem exists_unpackOf_nibble {t : FrameType} (h : t ≠ .null) :
    ∃ i, Safety.unpackOf t.nibble.toNat = some i ∧ Safety.lengthOf t.nibble.toNat = t.len ∧
      ∀ s, exec i s = unpack t s := by
  cases t with
  | null => exact absurd rfl h
  | _ => exact ⟨_, rfl, rfl, fun _ => rfl⟩

/-- A packet of type `t` in the buffer makes `decode` answer what the unpack procedure of `t` answers (R127). -/
theorem execDecode_eq_unpack {t : FrameType} {s : State} (hl : s.inp.req.ibufLen.toNat = t.len)
    (ht : FrameType.ofNibble (hiNibble (s.inp.req.ibuf.read 0)) = some t) : execDecode s = unpack t s := by
  rw [unpack_of_match hl (FrameType.nibble_of_ofNibble ht).symm, execDecode_eq, decodePacket_ok.2 ⟨t, ht, hl, rfl⟩]

/-- `decode` raises an error, or is the unpack operation whose length `ibuf_len` is, or receives a NULL packet (R122). -/
theorem exec_decode_cases (s : State) :
    (∃ e, exec .decode s = Safety.answered s (.error e)) ∨
      (∃ k i, Safety.unpackOf k = some i ∧ s.inp.req.ibufLen.toNat = Safety.lengthOf k ∧
        exec .decode s = exec i s) ∨
      (Safety.typeNibble s.inp.req = 0 ∧ s.inp.req.ibufLen.toNat = 3) := by
  cases hd : decodePacket s.inp.req.ibufLen.toNat s.inp.req.ibuf.read with
  | error e =>
    refine .inl ⟨e, ?_⟩
    rw [exec_eq, responseTo, decodeResponse, hd, Safety.answered_eq]
  | ok p =>
    obtain ⟨t, ht, hl, -⟩ := decodePacket_ok.1 hd
    by_cases hn : t = .null
    · subst hn
      refine .inr (.inr ⟨?_, hl⟩)
      rw [Safety.typeNibble_eq, ← FrameType.nibble_of_ofNibble ht]
      rfl
    · obtain ⟨i, hi, hk, he⟩ := exists_unpackOf_nibble hn
      refine .inr (.inl ⟨_, i, hi, hl.trans hk.symm, ?_⟩)
      rw [he]
      exact execDecode_eq_unpack hl ht

end Sys2Proof.Machine

namespace Sys2Proof.Proofs

open Sys2Proof.Machine Sys2Proof.Safety

/-- Settles O14: every pack operation writes its kind's `LEN` bytes, and `encode_header` three. -/
theorem outputLengthIsConstant : Obligations.OutputLengthIsConstant := by
  intro p hp s t r he hr
  obtain rfl := exec_next he
  rw [State.respond_results] at hr
  simp only [List.mem_cons, List.not_mem_nil, or_false] at hp
  obtain rfl | rfl | rfl | rfl | rfl | rfl | rfl | rfl | rfl := hp
  · exact encodeHeaderResponse_drivesOutput hr
  · exact packResponse_drivesOutput rfl hr
  · exact packResponse_drivesOutput rfl hr
  · exact packResponse_drivesOutput rfl hr
  · exact packResponse_drivesOutput rfl hr
  · exact packResponse_drivesOutput rfl hr
  · exact packResponse_drivesOutput rfl hr
  · exact packResponse_drivesOutput rfl hr
  · exact packResponse_drivesOutput (Request.infoPayload_wf _) hr

/-- Settles O47: each response is a function of the request that reads `ibuf` below 303 only, and `decode` completes only at the
length of a packet. -/
theorem longBuffersAreNotRead : Obligations.LongBuffersAreNotRead := by
  refine ⟨fun i s u t v hb hq hs hu => ?_, fun s u t v hs1 hu1 hb hs hu => ?_,
    fun s u t v hs3 hu3 hb hs hu => ?_, fun s => ⟨fun k i hk => ?_, exec_decode_cases s⟩⟩
  · obtain rfl := exec_next hs
    obtain rfl := exec_next hu
    have hr := (responseTo_congr_ibuf i hb).trans (congrArg (responseTo i) hq.symm)
    simp only [State.respond_rsp, hr]
  · obtain rfl := exec_next hs
    obtain rfl := exec_next hu
    simp [responseTo, typeOfResponse_of_le hs1, typeOfResponse_of_le hu1, hb, Response.status]
  · obtain rfl := exec_next hs
    obtain rfl := exec_next hu
    simp [responseTo, decodeHeaderResponse_of_le hs3, decodeHeaderResponse_of_le hu3, hb, Response.status]
  · obtain ⟨t, hlen, he⟩ := exec_of_unpackOf hk
    rw [hlen]
    exact ⟨t.len_le, fun hne => by rw [he, unpack_of_length hne, answered_eq]⟩

end Sys2Proof.Proofs
end

section
/-!
The operation codes and the response of a served request (R71, R72, R158), and the statuses each operation can give (R146).
-/

namespace Sys2Proof.Machine

-- The operation codes (R71, R72)

/-- A code the decoder takes is one of the table's twenty. -/
theorem mem_operations_of_decodeOp {c : BitVec 6} {i : Instr} (h : decodeOp c = .ok i) : (c, i) ∈ Safety.operations := by
  unfold decodeOp at h
  split at h <;> cases h <;> decide

/-- A code outside the table is IllegalOp. -/
theorem decodeOp_of_reserved {c : BitVec 6} (h : ∀ p ∈ Safety.operations, p.1 ≠ c) : decodeOp c = .error .illegalOp := by
  cases hd : decodeOp c with
  | error e => rw [decodeOp_error hd]
  | ok i => exact absurd rfl (h _ (mem_operations_of_decodeOp hd))

/-- The table's operations are those of format OP6: none is a packet. -/
theorem frameType?_of_mem_operations {c : BitVec 6} {i : Instr} (h : (c, i) ∈ Safety.operations) :
    Laws.frameType? i = none :=
  (by decide : ∀ p ∈ Safety.operations, Laws.frameType? p.2 = none) _ h

-- The response of a served request (R158)

/-- What a served request is answered: IllegalOp for a reserved code, else the response of its operation. -/
def servedResponse (q : Request) : Response :=
  match decodeOp q.op with
  | .error e => .error e
  | .ok i => responseTo i q

theorem servedResponse_of_reserved {q : Request} (h : ∀ p ∈ Safety.operations, p.1 ≠ q.op) :
    servedResponse q = .error .illegalOp := by
  rw [servedResponse, decodeOp_of_reserved h]

/-- A step that serves a request answers it, and then no request is presented. -/
theorem step_of_serving {s : State} (h : Safety.Serving s) :
    step s = .next (s.respond (servedResponse s.inp.req)).advance := by
  obtain ⟨hrst, hvalid, hheld⟩ := h
  cases hd : decodeOp s.inp.req.op with
  | error e => simp [step, fetch, servedResponse, hrst, hvalid, hheld, hd, raise_eq]
  | ok i => simp [step, fetch, servedResponse, hrst, hvalid, hheld, hd, exec_eq]

-- The status of each response (R73, R146)

/-- A response has results exactly when its status is OK or the warning. -/
theorem Response.results_isSome_iff (r : Response) :
    r.results.isSome = true ↔ r.status = .ok ∨ r.status = .messageTruncated := by
  cases r with
  | error e => cases e <;> simp [Response.results, Response.status, errorStatus]
  | done truncated r => cases truncated <;> simp [Response.results, Response.status]

theorem encodeHeaderResponse_status (q : Request) :
    (encodeHeaderResponse q).status = if 15 < q.typeIn.toNat then .invalidType else .ok := by
  unfold encodeHeaderResponse
  split_ifs <;> rfl

theorem decodeHeaderResponse_status (q : Request) :
    (decodeHeaderResponse q).status = if q.ibufLen.toNat < 3 then .truncatedBuffer else .ok := by
  unfold decodeHeaderResponse
  split_ifs <;> rfl

theorem typeOfResponse_status (q : Request) :
    (typeOfResponse q).status = if q.ibufLen.toNat < 1 then .truncatedBuffer else .ok := by
  unfold typeOfResponse
  split_ifs <;> rfl

theorem packResponse_status (truncated : Bool) (p : Payload) (q : Request) :
    (packResponse truncated p q).status = if truncated then .messageTruncated else .ok := rfl

theorem unpackResponse_status (t : FrameType) (q : Request) :
    (unpackResponse t q).status =
      if q.ibufLen.toNat ≠ t.len then .sizeMismatch
      else if hiNibble (q.ibuf.read 0) ≠ t.nibble then .typeMismatch
      else .ok := by
  unfold unpackResponse
  split_ifs <;> rfl

theorem decodeResponse_status_mem (q : Request) : (decodeResponse q).status ∈ Safety.statuses .decode := by
  unfold decodeResponse
  cases hd : decodePacket q.ibufLen.toNat q.ibuf.read with
  | ok p => exact List.mem_cons_self
  | error e =>
    obtain ⟨-, rfl⟩ | ⟨-, -, rfl⟩ | ⟨-, t, -, ⟨-, rfl⟩ | ⟨-, rfl⟩⟩ := decodePacket_error.1 hd <;> decide

/-- An operation gives no status outside its row of R146. -/
theorem responseTo_status_mem {i : Instr} (h : Laws.frameType? i = none) (q : Request) :
    (responseTo i q).status ∈ Safety.statuses i := by
  cases i with
  | encodeHeader =>
    rw [responseTo, encodeHeaderResponse_status]
    split_ifs <;> decide
  | decodeHeader =>
    rw [responseTo, decodeHeaderResponse_status]
    split_ifs <;> decide
  | typeOf =>
    rw [responseTo, typeOfResponse_status]
    split_ifs <;> decide
  | packMotion | packEnvironmental | packAirQuality | packSecondaryAccel | packAltitude | packOrientation | packCommand =>
    exact List.mem_cons_self
  | packInfo =>
    rw [responseTo, packResponse_status]
    split_ifs <;> decide
  | unpackMotion | unpackEnvironmental | unpackAirQuality | unpackSecondaryAccel | unpackAltitude | unpackOrientation
  | unpackCommand | unpackInfo =>
    rw [responseTo, unpackResponse_status]
    split_ifs <;> decide
  | decode => exact decodeResponse_status_mem q
  | _ => cases h

-- Every status of a row is given (R146)

/-- A request that announces a buffer of `len` bytes, of which byte 0 is `b` and the others are 0x00. -/
def Request.ofFirstByte (len : Nat) (b : Byte) : Request :=
  { Request.zero with ibufLen := BitVec.ofNat 16 len, ibuf := Memory.write [] 0 b }

theorem Request.ofFirstByte_ibufLen {len : Nat} (h : len ≤ 303) (b : Byte) :
    (Request.ofFirstByte len b).ibufLen.toNat = len := by
  simp only [ofFirstByte, BitVec.toNat_ofNat]
  omega

@[simp] theorem Request.ofFirstByte_read_zero (len : Nat) (b : Byte) : (Request.ofFirstByte len b).ibuf.read 0 = b :=
  Memory.read_write (Memory.nil_wf 303) 0 b 0

/-- Every unpack procedure gives OK, SizeMismatch and TypeMismatch: an empty buffer, one of the right length and an unassigned type, and
one of the right length and type. -/
theorem exists_unpackResponse_status (t : FrameType) {st : Status} (h : st ∈ [Status.ok, .sizeMismatch, .typeMismatch]) :
    ∃ q, (unpackResponse t q).status = st := by
  have hlen (b : Byte) := Request.ofFirstByte_ibufLen t.len_le b
  simp only [List.mem_cons, List.not_mem_nil, or_false] at h
  obtain rfl | rfl | rfl := h
  · exact ⟨.ofFirstByte t.len (t.nibble ++ 0#4), by simp [unpackResponse_status, hlen]⟩
  · have hempty : Request.zero.ibufLen.toNat ≠ t.len := (Nat.zero_lt_of_lt t.three_le_len).ne
    exact ⟨.zero, by rw [unpackResponse_status, if_pos hempty]⟩
  · have hunassigned : hiNibble 0xF0#8 ≠ t.nibble := by cases t <;> decide
    exact ⟨.ofFirstByte t.len 0xF0#8, by simp [unpackResponse_status, hlen, hunassigned]⟩

/-- An operation gives every status of its row of R146. -/
theorem exists_responseTo_status {i : Instr} {st : Status} (h : st ∈ Safety.statuses i) :
    ∃ q, (responseTo i q).status = st := by
  cases i with
  | unpackMotion | unpackEnvironmental | unpackAirQuality | unpackSecondaryAccel | unpackAltitude | unpackOrientation
  | unpackCommand | unpackInfo => exact exists_unpackResponse_status _ h
  | packMotion | packEnvironmental | packAirQuality | packSecondaryAccel | packAltitude | packOrientation | packCommand =>
    exact ⟨.zero, (List.mem_singleton.1 h).symm⟩
  | encodeHeader =>
    simp only [Safety.statuses, List.mem_cons, List.not_mem_nil, or_false] at h
    obtain rfl | rfl := h
    exacts [⟨.zero, rfl⟩, ⟨{ Request.zero with typeIn := 16 }, rfl⟩]
  | decodeHeader | typeOf =>
    simp only [Safety.statuses, List.mem_cons, List.not_mem_nil, or_false] at h
    obtain rfl | rfl := h
    exacts [⟨.ofFirstByte 3 0x70, rfl⟩, ⟨.zero, rfl⟩]
  | packInfo =>
    simp only [Safety.statuses, List.mem_cons, List.not_mem_nil, or_false] at h
    obtain rfl | rfl := h
    exacts [⟨.zero, rfl⟩, ⟨{ Request.zero with msgLen := 300 }, rfl⟩]
  | decode =>
    simp only [Safety.statuses, List.mem_cons, List.not_mem_nil, or_false] at h
    obtain rfl | rfl | rfl | rfl := h
    exacts [⟨.ofFirstByte 3 0x70, rfl⟩, ⟨.zero, rfl⟩, ⟨.ofFirstByte 4 0x70, rfl⟩, ⟨.ofFirstByte 1 0x90, rfl⟩]
  | _ => cases h

end Sys2Proof.Machine

namespace Sys2Proof.Proofs

open Sys2Proof.Machine Sys2Proof.Safety

/-- Settles O44: the codes of R73, and each row of R146 in both directions. -/
theorem statusesFollowTheTable : Obligations.StatusesFollowTheTable := by
  refine ⟨rfl, fun st => ?_, Response.results_isSome_iff, fun c i hi => ⟨fun s t ht => ?_, fun st hst => ?_⟩⟩
  · cases st <;> decide
  · obtain rfl := exec_next ht
    exact ⟨_, State.respond_status _ _, responseTo_status_mem (frameType?_of_mem_operations hi) _⟩
  · obtain ⟨q, rfl⟩ := exists_responseTo_status hst
    exact ⟨State.reset.present q, _, exec_eq i _, State.respond_status _ _⟩

/-- Settles O50: the decoder of codes takes the twenty of R71 alone, and a step answers IllegalOp for any other. -/
theorem reservedCodesAreIllegal : Obligations.ReservedCodesAreIllegal := by
  refine ⟨fun s hs hop => ⟨_, step_of_serving hs, ?_⟩, by decide⟩
  rw [servedResponse_of_reserved hop]
  exact ⟨rfl, rfl, rfl, rfl⟩

end Sys2Proof.Proofs
end

section
/-!
The header codec (R81 to R85): the two outcomes of each of its operations in the spec's own formulas, and the header that
writing and reading give back to each other.
-/

namespace Sys2Proof

/-- Writing the header that was read from bytes 0 to 2 gives the three bytes again (R84). -/
theorem headerBytes_read (rd : Nat → Byte) :
    headerBytes (hiNibble (rd 0)) (loNibble (rd 0)) (get16 rd 1) = (List.range 3).map rd := by
  rw [headerBytes, put16_get16, nibbles_append]
  rfl

/-- An unassigned discriminant is that of no frame type (R66). -/
theorem FrameType.ne_nibble_of_ofNibble_none {n : Nibble} (h : FrameType.ofNibble n = none) (t : FrameType) :
    n ≠ t.nibble := by
  rintro rfl
  simp at h

namespace Machine

/-- What an instruction does, in the words of the statements. -/
theorem exec_eq_answered (i : Instr) (s : State) : exec i s = Safety.answered s (responseTo i s.inp.req) :=
  exec_eq i s

-- The header operands and results as numbers (R18, R82)

theorem Request.flags_eq_ofNat (q : Request) : q.flags = BitVec.ofNat 4 q.flagsIn.toNat :=
  BitVec.eq_of_toNat_eq (by rw [Request.flags_toNat, BitVec.toNat_ofNat])

theorem Request.time_eq_ofNat (q : Request) : q.time = BitVec.ofNat 16 q.timeIn.toNat :=
  BitVec.eq_of_toNat_eq (by rw [Request.time_toNat, BitVec.toNat_ofNat])

theorem hiNibble_eq_typeNibble (q : Request) : hiNibble (q.ibuf.read 0) = BitVec.ofNat 4 (Safety.typeNibble q) := by
  rw [Safety.typeNibble_eq, BitVec.ofNat_toNat, BitVec.setWidth_eq]

/-- The header a buffer carries, in the model's readers. -/
theorem headerAnd_nil (q : Request) :
    Safety.headerAnd q [] =
      { hdrType := some (hiNibble (q.ibuf.read 0))
        hdrFlags := some (loNibble (q.ibuf.read 0))
        hdrTime := some (get16 q.ibuf.read 1) } := by
  have hflags : loNibble (q.ibuf.read 0) = BitVec.ofNat 4 ((q.ibuf.read 0).toNat % 16) := by
    rw [← loNibble_toNat, BitVec.ofNat_toNat, BitVec.setWidth_eq]
  have htime : get16 q.ibuf.read 1 = BitVec.ofNat 16 (Safety.memRead q.ibuf.read 1 2) := by
    rw [Safety.memRead_two, BitVec.ofNat_toNat, BitVec.setWidth_eq]
  rw [hiNibble_eq_typeNibble, hflags, htime, Safety.headerAnd]

-- The two outcomes of each operation (R81 to R83)

/-- The three bytes `encode_header` writes for the operands of a request (R81). -/
def Request.encodedHeader (q : Request) : List Byte :=
  headerBytes (BitVec.ofNat 4 q.typeIn.toNat) q.flags q.time

theorem Request.encodedHeader_length (q : Request) : q.encodedHeader.length = 3 := rfl

/-- A type that fits in 4 bits is written, with the flags and the time (R81). -/
theorem encodeHeaderResponse_of_le {q : Request} (h : q.typeIn.toNat ≤ 15) :
    encodeHeaderResponse q = .done false (Safety.produced 3 q.encodedHeader) := by
  have htype : q.typeIn.extractLsb' 0 4 = BitVec.ofNat 4 q.typeIn.toNat :=
    BitVec.eq_of_toNat_eq (by simp)
  rw [encodeHeaderResponse, if_neg (by omega), htype]
  rfl

theorem exec_encodeHeader_of_le {s : State} (h : s.inp.req.typeIn.toNat ≤ 15) :
    exec .encodeHeader s = Safety.answered s (.done false (Safety.produced 3 s.inp.req.encodedHeader)) := by
  rw [exec_eq_answered, responseTo, encodeHeaderResponse_of_le h]

/-- A type that does not fit in 4 bits is InvalidType (R81). -/
theorem encodeHeaderResponse_of_lt {q : Request} (h : 15 < q.typeIn.toNat) :
    encodeHeaderResponse q = .error .invalidType :=
  if_pos h

/-- The bytes `encode_header` writes are the header of R81. -/
theorem Request.headerOf_encodedHeader {q : Request} (h : q.typeIn.toNat ≤ 15) :
    Safety.HeaderOf q.encodedHeader q.typeIn.toNat q := by
  have htype : (BitVec.ofNat 4 q.typeIn.toNat).toNat = q.typeIn.toNat := by
    rw [BitVec.toNat_ofNat]
    omega
  have hfields := Safety.fieldAt_header (BitVec.ofNat 4 q.typeIn.toNat) q.flags q.time []
  rwa [List.append_nil, htype, Request.flags_toNat, Request.time_toNat] at hfields

/-- Fewer than three bytes hold no header (R82). -/
theorem decodeHeaderResponse_of_lt {q : Request} (h : q.ibufLen.toNat < 3) :
    decodeHeaderResponse q = .error .truncatedBuffer :=
  if_pos h

/-- No byte holds no type nibble (R83). -/
theorem typeOfResponse_of_zero {q : Request} (h : q.ibufLen.toNat = 0) : typeOfResponse q = .error .truncatedBuffer :=
  if_pos (by omega)

-- Writing a header, then reading it (R84)

/-- A byte of a buffer the caller copied to `ibuf` is that byte of the buffer. -/
theorem Request.withBuffer_read {q : Request} {bytes : List Byte} (hq : q.wf = true) (hb : bytes.length ≤ 303) {a : Nat}
    (ha : a < bytes.length) : (q.withBuffer bytes).ibuf.read a = bytes[a] := by
  have hwf : Memory.wf 303 q.ibuf = true := (Bool.and_eq_true_iff.1 hq).2
  rw [Request.withBuffer_ibuf, Config.bufMax_eq, List.take_of_length_le hb, Memory.read_load _ hwf (by omega)]
  simp [ha]

/-- `decode_header` reads from a copied header what was written in it (R84). -/
theorem decodeHeaderResponse_withBuffer {q : Request} (hq : q.wf = true) (type flags : Nibble) (time : Half) :
    decodeHeaderResponse (q.withBuffer (headerBytes type flags time)) =
      .done false { hdrType := some type, hdrFlags := some flags, hdrTime := some time } := by
  have hread (a : Nat) (ha : a < 3) := Request.withBuffer_read (bytes := headerBytes type flags time) hq (by simp) ha
  have h0 : (q.withBuffer (headerBytes type flags time)).ibuf.read 0 = type ++ flags := hread 0 (by decide)
  have h1 : (q.withBuffer (headerBytes type flags time)).ibuf.read 1 = time.extractLsb' 8 8 := hread 1 (by decide)
  have h2 : (q.withBuffer (headerBytes type flags time)).ibuf.read 2 = time.extractLsb' 0 8 := hread 2 (by decide)
  rw [decodeHeaderResponse_of_le (by simp), h0, h1, h2, hiNibble_append, loNibble_append, get16_put16]

-- Reading a header, then writing it (R84)

/-- `encode_header` writes again the bytes that `decode_header` read its operands from (R84). -/
theorem Request.encodedHeader_of_read {q : Request} {rd : Nat → Byte}
    (htype : hiNibble (rd 0) = BitVec.ofNat 4 q.typeIn.toNat) (hflags : loNibble (rd 0) = BitVec.ofNat 4 q.flagsIn.toNat)
    (htime : get16 rd 1 = BitVec.ofNat 16 q.timeIn.toNat) :
    q.encodedHeader = (List.range 3).map rd := by
  rw [Request.encodedHeader, Request.flags_eq_ofNat, Request.time_eq_ofNat, ← htype, ← hflags, ← htime, headerBytes_read]

-- The unassigned types (R66, R85)

/-- A nibble from 9 up names no frame type. -/
theorem ofNibble_of_nine_le {q : Request} (h : 9 ≤ Safety.typeNibble q) :
    FrameType.ofNibble (hiNibble (q.ibuf.read 0)) = none := by
  rw [Safety.typeNibble_eq] at h
  exact FrameType.ofNibble_none.2 h

/-- `decode` of an unassigned type is UnknownFrameType, whatever the length (R121). -/
theorem decodeResponse_of_unassigned {q : Request} (hl : 1 ≤ q.ibufLen.toNat)
    (h : FrameType.ofNibble (hiNibble (q.ibuf.read 0)) = none) : decodeResponse q = .error .unknownFrameType := by
  rw [decodeResponse, decodePacket_error.2 (.inr (.inl ⟨hl, h, rfl⟩))]

end Machine

end Sys2Proof

namespace Sys2Proof.Proofs

open Sys2Proof.Machine Sys2Proof.Safety

/-- Settles O1: the two outcomes of `encode_header`, whose bytes are the header of R81. -/
theorem encodeHeaderWritesTheHeader : Obligations.EncodeHeaderWritesTheHeader := by
  refine ⟨rfl, fun s => ⟨fun h => ?_, fun h => ?_⟩⟩
  · exact ⟨_, exec_encodeHeader_of_le h, Request.encodedHeader_length _, Request.headerOf_encodedHeader h⟩
  · rw [exec_eq_answered, responseTo, encodeHeaderResponse_of_lt h]

/-- Settles O2: the two outcomes of `decode_header`. -/
theorem decodeHeaderReadsTheHeader : Obligations.DecodeHeaderReadsTheHeader := by
  refine ⟨rfl, fun s => ⟨fun h => ?_, fun h => ?_⟩⟩
  · rw [exec_eq_answered, responseTo, decodeHeaderResponse_of_le h, headerAnd_nil]
    rfl
  · rw [exec_eq_answered, responseTo, decodeHeaderResponse_of_lt h]

/-- Settles O3: the two outcomes of `type_of`. -/
theorem typeOfPeeksTheNibble : Obligations.TypeOfPeeksTheNibble := by
  refine ⟨rfl, fun s => ⟨fun h => ?_, fun h => ?_⟩⟩
  · rw [exec_eq_answered, responseTo, typeOfResponse_of_le h, hiNibble_eq_typeNibble, typeNibble]
  · rw [exec_eq_answered, responseTo, typeOfResponse_of_zero h]

/-- Settles O4: reading gives back the header that was written, and writing gives back the bytes that were read. -/
theorem headerRoundTrips : Obligations.HeaderRoundTrips := by
  refine ⟨fun s u ht hu => ⟨_, exec_encodeHeader_of_le ht, ?_⟩, fun s u hl => ?_⟩
  · rw [exec_eq_answered, responseTo, State.present_req, Request.encodedHeader, decodeHeaderResponse_withBuffer hu,
      Request.flags_eq_ofNat, Request.time_eq_ofNat]
  · refine ⟨_, by rw [exec_eq_answered, responseTo, decodeHeaderResponse_of_le hl.ge],
      fun htype ht hflags htime => ⟨_, exec_encodeHeader_of_le ht, Request.encodedHeader_length _, fun a ha => ?_⟩⟩
    have hbytes : u.inp.req.encodedHeader = (List.range 3).map s.inp.req.ibuf.read :=
      Request.encodedHeader_of_read (Option.some.inj htype) (Option.some.inj hflags) (Option.some.inj htime)
    rw [hbytes, List.getElem?_map, List.getElem?_range ha, Option.map_some]

/-- Settles O5: the header codec does not consult the registry, and `decode` and the unpack procedure find no type in it. -/
theorem unassignedTypesPassTheHeaderCodecOnly : Obligations.UnassignedTypesPassTheHeaderCodecOnly := by
  intro s hn hl
  have hnone := ofNibble_of_nine_le hn
  refine ⟨⟨headerAnd s.inp.req [], (decodeHeaderReadsTheHeader.2 s).1 hl, rfl⟩,
    ⟨_, (typeOfPeeksTheNibble.2 s).1 (by omega), rfl⟩, ?_, fun k i hk => ?_⟩
  · rw [exec_eq_answered, responseTo, decodeResponse_of_unassigned (by omega) hnone]
  · obtain ⟨t, hlen, he⟩ := exec_of_unpackOf hk
    rw [he, hlen]
    exact ⟨fun heq => unpack_of_type heq (FrameType.ne_nibble_of_ofNibble_none hnone t), unpack_of_length⟩

end Sys2Proof.Proofs
end

section
/-!
The pack operations (R90 to R98): the packet each one builds, field by field in the spec's own formulas, and the INFO packet that
`unpack_info` reads back (R100).
-/

namespace Sys2Proof

-- The slots a pack operation takes its fields from (R17)

/-- The first `n` of the nine request slots. -/
def Machine.Request.slots (q : Machine.Request) (n : Nat) (hn : n ≤ 9) : List Word :=
  List.ofFn fun i : Fin n => q.x[i]

@[simp] theorem Machine.Request.slots_length (q : Machine.Request) {n : Nat} (hn : n ≤ 9) : (q.slots n hn).length = n :=
  List.length_ofFn

@[simp] theorem Machine.Request.slots_getElem (q : Machine.Request) {n : Nat} (hn : n ≤ 9) {i : Nat}
    (hi : i < (q.slots n hn).length) : (q.slots n hn)[i] = q.x[i]'((q.slots_length hn ▸ hi).trans_le hn) :=
  List.getElem_ofFn hi

namespace Safety

-- Fields written back to back (R35, R37)

/-- Where every field is `n` bytes that hold the number `value` gives it, the fields written back to back after other bytes stand
`n` bytes apart. -/
theorem fieldAt_flatMap {α : Type} {put : α → List Byte} {n : Nat} {value : α → Nat} (hlen : ∀ v, (put v).length = n)
    (hput : ∀ pre v post, FieldAt (pre ++ (put v ++ post)) pre.length n (value v)) (pre : List Byte) (vs : List α) {i : Nat}
    (hi : i < vs.length) : FieldAt (pre ++ vs.flatMap put) (pre.length + n * i) n (value vs[i]) := by
  have hsplit : vs.flatMap put = (vs.take i).flatMap put ++ (put vs[i] ++ (vs.drop (i + 1)).flatMap put) := by
    rw [← List.flatMap_cons, ← List.flatMap_append, List.getElem_cons_drop, List.take_append_drop]
  have hbefore : (pre ++ (vs.take i).flatMap put).length = pre.length + n * i := by
    simp [List.length_flatMap, hlen, Nat.min_eq_left hi.le, Nat.mul_comm]
  have hfield := hput (pre ++ (vs.take i).flatMap put) vs[i] ((vs.drop (i + 1)).flatMap put)
  rwa [List.append_assoc, ← hsplit, hbefore] at hfield

/-- In a packet whose payload is the first `n` slots, each 32-bit field stands at its index. -/
theorem fieldAt_packet_words {q : Machine.Request} {n : Nat} (hn : n ≤ 9) {p : Payload}
    (hp : p.bytes = (q.slots n hn).flatMap put32) {i : Nat} (hi : i < n) :
    FieldAt (q.packet p).bytes (3 + 4 * i) 4 q.x[i].toNat := by
  have hfields := fieldAt_flatMap (value := BitVec.toNat) put32_length (fun pre v post => fieldAt_put32 pre v post rfl rfl rfl)
    (headerBytes p.type.nibble q.flags q.time) (q.slots n hn) (i := i) (by simpa using hi)
  rwa [← hp, Machine.Request.slots_getElem] at hfields

/-- In a packet whose payload is the low halves of the first `n` slots, each 16-bit field stands at its index. -/
theorem fieldAt_packet_lowHalves {q : Machine.Request} {n : Nat} (hn : n ≤ 9) {p : Payload}
    (hp : p.bytes = (q.slots n hn).flatMap fun v => put16 (Machine.lowHalf v)) {i : Nat} (hi : i < n) :
    FieldAt (q.packet p).bytes (3 + 2 * i) 2 (q.x[i].toNat % 65536) := by
  have hfields := fieldAt_flatMap (value := fun v => v.toNat % 65536) (fun v => put16_length (Machine.lowHalf v))
    (fun pre v post => fieldAt_put16 pre (Machine.lowHalf v) post rfl rfl (Machine.lowHalf_toNat v).symm)
    (headerBytes p.type.nibble q.flags q.time) (q.slots n hn) (i := i) (by simpa using hi)
  rwa [← hp, Machine.Request.slots_getElem] at hfields

end Safety

-- Reading a packet that was written (R51, R65)

/-- The payload bytes of a packet begin after the header. -/
theorem Packet.bytes_getElem?_payload (p : Packet) (j : Nat) : p.bytes[3 + j]? = p.payload.bytes[j]? := by
  rw [Packet.bytes, List.getElem?_append_right (by simp)]
  simp

/-- Reading the layout of a well-formed payload from the bytes of its packet gives the payload. -/
theorem Payload.read_bytes {p : Packet} (hp : p.payload.wf = true) :
    Payload.read p.payload.type (fun a => p.bytes.getD a 0) = p.payload := by
  obtain ⟨flags, time, payload⟩ := p
  cases payload with
  | info buf =>
    have hlen : buf.length = 300 := by simpa [Payload.wf] using hp
    refine congrArg Payload.info (List.ext_getElem (by simp [hlen]) fun j _ hj => ?_)
    simp [List.getD, Packet.bytes_getElem?_payload, Payload.bytes, hj]
  | null | command => rfl
  | motion fields | environmental fields | secondaryAccel fields | altitude fields =>
    cases fields
    simp only [Payload.read, Payload.type, Packet.bytes, Payload.bytes, headerBytes, put16, put32, List.cons_append,
      List.nil_append]
    congr 2 <;> exact get32_put32 _
  | airQuality fields | orientation fields =>
    cases fields
    simp only [Payload.read, Payload.type, Packet.bytes, Payload.bytes, headerBytes, put16, List.cons_append, List.nil_append]
    congr 2 <;> exact get16_put16 _

/-- Reading a buffer that holds the bytes of a well-formed packet gives the packet. -/
theorem Packet.read_of_bytes {p : Packet} (hp : p.payload.wf = true) {rd : Nat → Byte}
    (hrd : ∀ a (ha : a < p.bytes.length), rd a = p.bytes[a]) : Packet.read p.payload.type rd = p := by
  have hcongr : Packet.read p.payload.type rd = Packet.read p.payload.type fun a => p.bytes.getD a 0 := by
    refine Packet.read_congr fun a ha => ?_
    rw [← Packet.bytes_length hp] at ha
    rw [hrd a ha, List.getD_eq_getElem _ _ ha]
  have hflags : loNibble (p.bytes.getD 0 0) = p.flags := loNibble_append _ _
  have htime : get16 (fun a => p.bytes.getD a 0) 1 = p.time := get16_put16 _
  rw [hcongr, Packet.read, Payload.read_bytes hp, hflags, htime]

namespace Machine

/-- The unpack procedure reads from a copied packet what was written in it (R116). -/
theorem unpackResponse_withBuffer {q : Request} (hq : q.wf = true) {p : Packet} (hp : p.payload.wf = true) :
    unpackResponse p.payload.type (q.withBuffer p.bytes) = packetResponse p := by
  have hlen := Packet.bytes_length hp
  have hle := p.payload.type.len_le
  have hpos := p.payload.type.three_le_len
  have hread : ∀ a (ha : a < p.bytes.length), (q.withBuffer p.bytes).ibuf.read a = p.bytes[a] :=
    fun a ha => Request.withBuffer_read hq (by omega) ha
  have hbuf : (q.withBuffer p.bytes).ibufLen.toNat = p.payload.type.len := by
    rw [Request.withBuffer_ibufLen, BitVec.toNat_ofNat]
    omega
  have htype : hiNibble ((q.withBuffer p.bytes).ibuf.read 0) = p.payload.type.nibble := by
    rw [hread 0 (by omega)]
    exact hiNibble_append _ _
  rw [unpackResponse, if_neg (not_not.2 hbuf), if_neg (not_not.2 htype), Packet.read_of_bytes hp hread, packetResponse]

-- What every pack operation answers (R90)

/-- An operation that answers as the pack procedure does builds a packet of its payload's length, which begins with its header. -/
theorem exec_builds_packet {i : Instr} {s : State} {w : Bool} {p : Payload}
    (hi : responseTo i s.inp.req = packResponse w p s.inp.req) (hp : p.wf = true) :
    exec i s = Safety.answered s (.done w (Safety.produced p.type.len (s.inp.req.packet p).bytes)) ∧
      (s.inp.req.packet p).bytes.length = p.type.len ∧
      Safety.HeaderOf (s.inp.req.packet p).bytes p.type.nibble.toNat s.inp.req := by
  have hlen : (s.inp.req.packet p).bytes.length = p.type.len := Packet.bytes_length hp
  refine ⟨?_, hlen, Safety.headerOf_packet _ p⟩
  rw [exec_eq_answered, hi, packResponse, Results.ofBytes, Safety.produced, hlen]

/-- `encode_header` with type 7 writes the bytes of the COMMAND packet (R97). -/
theorem Request.encodedHeader_eq_command {q u : Request} (htype : u.typeIn = 7) (hflags : u.flagsIn = q.flagsIn)
    (htime : u.timeIn = q.timeIn) : u.encodedHeader = (q.packet .command).bytes := by
  simp only [Request.encodedHeader, Request.flags, Request.time, htype, hflags, htime]
  rfl

-- The INFO payload (R98, R100)

/-- The first terminator is at `n` when no byte before `n` is one and the byte at `n` is. -/
theorem firstTerminator_eq {buf : List Byte} {n : Nat} (hbefore : ∀ j, j < n → buf[j]? ≠ some Config.terminator)
    (hat : buf[n]? = some Config.terminator) : firstTerminator buf = n := by
  have hn : n < buf.length := (List.getElem?_eq_some_iff.1 hat).1
  obtain hlt | heq | hgt := Nat.lt_trichotomy (firstTerminator buf) n
  · exact absurd (firstTerminator_at (hlt.trans hn)) (hbefore _ hlt)
  · exact heq
  · exact absurd hat (firstTerminator_before hgt)

theorem Request.msgTaken_le (q : Request) : q.msgTaken ≤ 299 := Nat.min_le_right _ _

/-- The message bytes taken stand at the front of the INFO payload. -/
theorem Request.infoPayload_message {q : Request} {j : Nat} (h : j < q.msgTaken) :
    q.infoPayload[j]? = some (q.msg.read j) := by
  have := q.msgTaken_le
  rw [Request.infoPayload_getElem? q (by omega), if_pos h]

/-- After the message bytes taken the INFO payload is padded with the terminator. -/
theorem Request.infoPayload_padding {q : Request} {j : Nat} (h : q.msgTaken ≤ j) (hj : j < 300) :
    q.infoPayload[j]? = some Config.terminator := by
  rw [Request.infoPayload_getElem? q hj, if_neg (by omega)]

/-- A message without a terminator in what is taken of it ends where it was cut or ended. -/
theorem Request.firstTerminator_infoPayload {q : Request} (h : ∀ j, j < q.msgTaken → q.msg.read j ≠ Config.terminator) :
    firstTerminator q.infoPayload = q.msgTaken := by
  refine firstTerminator_eq (fun j hj => ?_) (Request.infoPayload_padding le_rfl (Nat.lt_succ_of_le q.msgTaken_le))
  rw [Request.infoPayload_message hj]
  exact fun he => h j hj (Option.some.inj he)

end Machine

end Sys2Proof

namespace Sys2Proof.Proofs

open Sys2Proof.Machine Sys2Proof.Safety

/-- Settles O6: the payload is the nine slots. -/
theorem packMotionBuildsThePacket : Obligations.PackMotionBuildsThePacket := by
  refine ⟨rfl, fun s => ?_⟩
  obtain ⟨hexec, hlen, hheader⟩ := exec_builds_packet (i := .packMotion) (s := s) rfl rfl
  have hfield (i : Nat) (hi : i < 9) := fieldAt_packet_words (q := s.inp.req) (by decide)
    (p := .motion s.inp.req.motion) rfl hi
  exact ⟨_, hexec, hlen, hheader, fun i => hfield i i.isLt⟩

/-- Settles O7: the payload is the first four slots. -/
theorem packEnvironmentalBuildsThePacket : Obligations.PackEnvironmentalBuildsThePacket := by
  refine ⟨rfl, fun s => ?_⟩
  obtain ⟨hexec, hlen, hheader⟩ := exec_builds_packet (i := .packEnvironmental) (s := s) rfl rfl
  have hfield (i : Nat) (hi : i < 4) := fieldAt_packet_words (q := s.inp.req) (by decide)
    (p := .environmental s.inp.req.environmental) rfl hi
  exact ⟨_, hexec, hlen, hheader, hfield 0 (by decide), hfield 1 (by decide), hfield 2 (by decide), hfield 3 (by decide)⟩

/-- Settles O8: the payload is the low halves of the first two slots. -/
theorem packAirQualityBuildsThePacket : Obligations.PackAirQualityBuildsThePacket := by
  refine ⟨rfl, fun s => ?_⟩
  obtain ⟨hexec, hlen, hheader⟩ := exec_builds_packet (i := .packAirQuality) (s := s) rfl rfl
  have hfield (i : Nat) (hi : i < 2) := fieldAt_packet_lowHalves (q := s.inp.req) (by decide)
    (p := .airQuality s.inp.req.airQuality) rfl hi
  exact ⟨_, hexec, hlen, hheader, hfield 0 (by decide), hfield 1 (by decide)⟩

/-- Settles O9: the payload is the first three slots. -/
theorem packSecondaryAccelBuildsThePacket : Obligations.PackSecondaryAccelBuildsThePacket := by
  refine ⟨rfl, fun s => ?_⟩
  obtain ⟨hexec, hlen, hheader⟩ := exec_builds_packet (i := .packSecondaryAccel) (s := s) rfl rfl
  have hfield (i : Nat) (hi : i < 3) := fieldAt_packet_words (q := s.inp.req) (by decide)
    (p := .secondaryAccel s.inp.req.secondaryAccel) rfl hi
  exact ⟨_, hexec, hlen, hheader, hfield 0 (by decide), hfield 1 (by decide), hfield 2 (by decide)⟩

/-- Settles O10: the payload is slot 0. -/
theorem packAltitudeBuildsThePacket : Obligations.PackAltitudeBuildsThePacket := by
  refine ⟨rfl, fun s => ?_⟩
  obtain ⟨hexec, hlen, hheader⟩ := exec_builds_packet (i := .packAltitude) (s := s) rfl rfl
  have hfield (i : Nat) (hi : i < 1) := fieldAt_packet_words (q := s.inp.req) (by decide)
    (p := .altitude s.inp.req.altitude) rfl hi
  exact ⟨_, hexec, hlen, hheader, hfield 0 (by decide)⟩

/-- Settles O11: the payload is the low halves of the first three slots. -/
theorem packOrientationBuildsThePacket : Obligations.PackOrientationBuildsThePacket := by
  refine ⟨rfl, fun s => ?_⟩
  obtain ⟨hexec, hlen, hheader⟩ := exec_builds_packet (i := .packOrientation) (s := s) rfl rfl
  have hfield (i : Nat) (hi : i < 3) := fieldAt_packet_lowHalves (q := s.inp.req) (by decide)
    (p := .orientation s.inp.req.orientation) rfl hi
  exact ⟨_, hexec, hlen, hheader, hfield 0 (by decide), hfield 1 (by decide), hfield 2 (by decide)⟩

/-- Settles O12: the payload is empty, and `encode_header` writes the header that is left. -/
theorem packCommandIsTheHeaderAlone : Obligations.PackCommandIsTheHeaderAlone := by
  refine ⟨rfl, fun s => ?_⟩
  obtain ⟨hexec, hlen, hheader⟩ := exec_builds_packet (i := .packCommand) (s := s) rfl rfl
  refine ⟨_, hexec, hlen, hheader, fun u htype hflags htime => ?_⟩
  rw [exec_encodeHeader_of_le (by rw [htype]; decide), Request.encodedHeader_eq_command htype hflags htime]

/-- Settles O13: the payload is the message bytes taken, then the padding. -/
theorem packInfoCopiesAndPads : Obligations.PackInfoCopiesAndPads := by
  refine ⟨rfl, fun s => ?_⟩
  obtain ⟨hexec, hlen, hheader⟩ := exec_builds_packet (i := .packInfo) (s := s) rfl (Request.infoPayload_wf _)
  refine ⟨_, hexec, hlen, hheader, fun j hj => ?_, fun j hj hj' => ?_⟩
  · rw [Packet.bytes_getElem?_payload]
    exact Request.infoPayload_message hj
  · rw [Packet.bytes_getElem?_payload]
    exact Request.infoPayload_padding hj hj'

/-- Settles O15: at capacity and one byte over, 299 bytes are taken, and the packet read back carries them. -/
theorem infoTruncationIsObservable : Obligations.InfoTruncationIsObservable := by
  intro s u hu hmsg hl
  have htaken : s.inp.req.msgTaken = 299 := by
    rw [Request.msgTaken, Config.msgCap_eq]
    omega
  have hcut : s.inp.req.msgCut = decide (s.inp.req.msgLen.toNat = 300) := by
    rw [Request.msgCut, Config.msgCap_eq, decide_eq_decide]
    omega
  have hwf := Request.infoPayload_wf s.inp.req
  have hfirst : firstTerminator s.inp.req.infoPayload = 299 :=
    htaken ▸ Request.firstTerminator_infoPayload (htaken ▸ hmsg)
  have hread := unpackResponse_withBuffer hu (p := s.inp.req.packet (.info s.inp.req.infoPayload)) hwf
  obtain ⟨hexec, -, -⟩ := exec_builds_packet (i := .packInfo) (s := s) rfl hwf
  rw [hcut] at hexec
  exact ⟨_, _, _, hexec, (exec_eq_answered _ _).trans (congrArg _ hread), congrArg (fun n => some (BitVec.ofNat 9 n)) hfirst, rfl,
    fun j hj => Request.infoPayload_message (htaken ▸ hj)⟩

end Sys2Proof.Proofs
end

section
/-!
The unpack operations (R105 to R116): the three outcomes of each one in the spec's own formulas, and the packet and the operands that
packing and unpacking give back to each other.
-/

namespace Sys2Proof

-- Writing a packet that was read (R35, R65)

/-- Writing the payload that was read from a buffer gives its bytes after the header again. -/
theorem Payload.bytes_read (t : FrameType) (rd : Nat → Byte) :
    (Payload.read t rd).bytes = (List.range t.size).map fun j => rd (3 + j) := by
  cases t with
  | null | command | info => rfl
  | motion | environmental | secondaryAccel | altitude =>
    simp only [Payload.read, Payload.bytes, put32_get32]
    rfl
  | airQuality | orientation =>
    simp only [Payload.read, Payload.bytes, put16_get16]
    rfl

/-- Writing the packet that was read from a buffer of its type gives the buffer again (R116). -/
theorem Packet.bytes_read {t : FrameType} {rd : Nat → Byte} (ht : hiNibble (rd 0) = t.nibble) :
    (Packet.read t rd).bytes = (List.range t.len).map rd := by
  have hheader : headerBytes t.nibble (loNibble (rd 0)) (get16 rd 1) = (List.range 3).map rd := by
    rw [← ht, headerBytes_read]
  rw [Packet.bytes, Packet.read, Payload.read_type, Payload.bytes_read, hheader, FrameType.len, Config.hdrSize_eq,
    List.range_add, List.map_append, List.map_map]
  rfl

namespace Machine

-- The results of an unpack operation in the spec's formulas (R21, R36)

/-- A sign-extended half is its two's complement value in a slot. -/
theorem sext32_eq_sint (v : Half) : sext32 v = BitVec.ofInt 32 (Safety.sint 16 v.toNat) := by
  have hsint : Safety.sint 16 v.toNat = v.toInt := by
    rw [Safety.sint, BitVec.toInt]
    split_ifs <;> omega
  rw [hsint, sext32, BitVec.signExtend]

@[simp] theorem lowHalf_sext32 (v : Half) : lowHalf (sext32 v) = v := by
  ext i hi
  simp [lowHalf, sext32, BitVec.getElem_signExtend, hi, show i < 32 by omega]

/-- A 16-bit operand comes back sign-extended (R17, R116). -/
theorem sext32_lowHalf (v : Word) : sext32 (lowHalf v) = Safety.half v := by
  rw [sext32_eq_sint, lowHalf_toNat, Safety.half]

theorem field32_eq_get32 (q : Request) (a : Nat) : Safety.field32 q a = get32 q.ibuf.read a := by
  rw [Safety.field32, Safety.memRead_four, BitVec.ofNat_toNat, BitVec.setWidth_eq]

theorem field16_eq_get16 (q : Request) (a : Nat) : Safety.field16 q a = sext32 (get16 q.ibuf.read a) := by
  rw [Safety.field16, Safety.memRead_two, sext32_eq_sint]

theorem typeNibble_eq_iff {q : Request} {t : FrameType} :
    Safety.typeNibble q = t.nibble.toNat ↔ hiNibble (q.ibuf.read 0) = t.nibble := by
  rw [Safety.typeNibble_eq, BitVec.toNat_inj]

/-- The results of a packet read from a buffer of its type: the buffer's header, the slots, and for INFO the payload. -/
theorem Results.ofPacket_read {q : Request} {t : FrameType} (ht : Safety.typeNibble q = t.nibble.toNat) :
    Results.ofPacket (Packet.read t q.ibuf.read) =
      { Safety.headerAnd q (Payload.slots (Payload.read t q.ibuf.read)) with
        infoLen := (Payload.infoBuf? (Payload.read t q.ibuf.read)).map fun buf => BitVec.ofNat 9 (firstTerminator buf)
        infoBuf := Payload.infoBuf? (Payload.read t q.ibuf.read) } := by
  have hheader := headerAnd_nil q
  simp only [Safety.headerAnd, Results.mk.injEq] at hheader ⊢
  rw [Results.ofPacket, Packet.read, Payload.read_type, ← typeNibble_eq_iff.1 ht]
  simp [hheader]

/-- Apart from INFO, the results of a packet are its header and its slots. -/
theorem Results.ofPacket_read_headerAnd {q : Request} {t : FrameType} {xs : List Word}
    (ht : Safety.typeNibble q = t.nibble.toNat) (hinfo : Payload.infoBuf? (Payload.read t q.ibuf.read) = none)
    (hx : Payload.slots (Payload.read t q.ibuf.read) = xs) :
    Results.ofPacket (Packet.read t q.ibuf.read) = Safety.headerAnd q xs := by
  rw [Results.ofPacket_read ht, hinfo, hx]
  rfl

/-- The first terminator among the bytes at the indices below `n`, or `n` (R23). -/
theorem firstTerminator_range_map (rd : Nat → Byte) (n : Nat) :
    firstTerminator ((List.range n).map rd) ≤ n ∧
    (∀ j, j < firstTerminator ((List.range n).map rd) → rd j ≠ Config.terminator) ∧
    (firstTerminator ((List.range n).map rd) < n → rd (firstTerminator ((List.range n).map rd)) = Config.terminator) := by
  have hbyte (j : Nat) (hj : j < n) : ((List.range n).map rd)[j]? = some (rd j) := by simp [hj]
  have hle : firstTerminator ((List.range n).map rd) ≤ n := by simpa using firstTerminator_le ((List.range n).map rd)
  refine ⟨hle, fun j hj hz => ?_, fun hn => ?_⟩
  · exact firstTerminator_before hj (hz ▸ hbyte j (hj.trans_le hle))
  · exact Option.some.inj ((hbyte _ hn).symm.trans (firstTerminator_at (by simpa using hn)))

-- The three outcomes of an unpack operation (R105)

/-- An operation that is the unpack procedure of `t` answers SizeMismatch, TypeMismatch, or the packet in the buffer. -/
theorem exec_unpack_outcomes {i : Instr} {t : FrameType} {s : State} {r : Results} (hi : exec i s = unpack t s)
    (hr : Safety.typeNibble s.inp.req = t.nibble.toNat → Results.ofPacket (Packet.read t s.inp.req.ibuf.read) = r) :
    (s.inp.req.ibufLen.toNat ≠ t.len → exec i s = Safety.answered s (.error .sizeMismatch)) ∧
    (s.inp.req.ibufLen.toNat = t.len → Safety.typeNibble s.inp.req ≠ t.nibble.toNat →
      exec i s = Safety.answered s (.error .typeMismatch)) ∧
    (s.inp.req.ibufLen.toNat = t.len → Safety.typeNibble s.inp.req = t.nibble.toNat →
      exec i s = Safety.answered s (.done false r)) := by
  rw [hi]
  exact ⟨unpack_of_length, fun hl ht => unpack_of_type hl (mt typeNibble_eq_iff.2 ht),
    fun hl ht => hr ht ▸ unpack_of_match hl (typeNibble_eq_iff.1 ht)⟩

/-- The unpack procedure completes only with a packet of its length and type. -/
theorem unpackResponse_done {t : FrameType} {q : Request} {w : Bool} {r : Results} (h : unpackResponse t q = .done w r) :
    q.ibufLen.toNat = t.len ∧ hiNibble (q.ibuf.read 0) = t.nibble ∧ r = Results.ofPacket (Packet.read t q.ibuf.read) := by
  unfold unpackResponse at h
  split_ifs at h with hl ht
  cases h
  exact ⟨not_not.1 hl, not_not.1 ht, rfl⟩

/-- A packet copied to the buffer is TypeMismatch for another kind of the same length (R115). -/
theorem unpackResponse_withBuffer_of_ne {q : Request} (hq : q.wf = true) {p : Packet} (hp : p.payload.wf = true)
    {t : FrameType} (hlen : p.payload.type.len = t.len) (hne : p.payload.type ≠ t) :
    unpackResponse t (q.withBuffer p.bytes) = .error .typeMismatch := by
  obtain ⟨hl, ht, -⟩ := unpackResponse_done (unpackResponse_withBuffer hq hp)
  have hother : hiNibble ((q.withBuffer p.bytes).ibuf.read 0) ≠ t.nibble :=
    ht ▸ mt FrameType.nibble_injective hne
  rw [unpackResponse, if_neg (not_not.2 (hl.trans hlen)), if_pos hother]

/-- One next state is that of one response. -/
theorem answered_injective {s : State} {r r' : Response} (h : Safety.answered s r = Safety.answered s r') : r = r' := by
  rw [Safety.answered, Safety.answered, Host.Outcome.next.injEq, State.mk.injEq] at h
  exact Option.some.inj h.2.1

-- The packet that a pack operation builds from the operands (R91 to R98)

/-- The payload of type `t` that a request's operands present (R17, R19). -/
def Request.payload (q : Request) : FrameType → Payload
  | .null => .null
  | .motion => .motion q.motion
  | .environmental => .environmental q.environmental
  | .airQuality => .airQuality q.airQuality
  | .secondaryAccel => .secondaryAccel q.secondaryAccel
  | .altitude => .altitude q.altitude
  | .orientation => .orientation q.orientation
  | .command => .command
  | .info => .info q.infoPayload

@[simp] theorem Request.payload_type (q : Request) (t : FrameType) : (q.payload t).type = t := by
  cases t <;> rfl

theorem Request.payload_wf (q : Request) (t : FrameType) : (q.payload t).wf = true := by
  cases t with
  | info => exact q.infoPayload_wf
  | _ => rfl

@[simp] theorem Request.packet_payload_type (q : Request) (t : FrameType) : (q.packet (q.payload t)).payload.type = t :=
  q.payload_type t

/-- The unpack operation of a kind is the unpack procedure at its frame type, which is not NULL (R71). -/
theorem exists_frameType_of_unpackOf {k : Nat} {i : Instr} (h : Safety.unpackOf k = some i) :
    ∃ t : FrameType, t ≠ .null ∧ t.nibble.toNat = k ∧ Safety.lengthOf k = t.len ∧ ∀ s, exec i s = unpack t s := by
  unfold Safety.unpackOf at h
  split at h <;> cases h
  exacts [⟨.motion, by decide, rfl, rfl, fun _ => rfl⟩, ⟨.environmental, by decide, rfl, rfl, fun _ => rfl⟩,
    ⟨.airQuality, by decide, rfl, rfl, fun _ => rfl⟩, ⟨.secondaryAccel, by decide, rfl, rfl, fun _ => rfl⟩,
    ⟨.altitude, by decide, rfl, rfl, fun _ => rfl⟩, ⟨.orientation, by decide, rfl, rfl, fun _ => rfl⟩,
    ⟨.command, by decide, rfl, rfl, fun _ => rfl⟩, ⟨.info, by decide, rfl, rfl, fun _ => rfl⟩]

/-- The pack operation of a frame type answers as the pack procedure does for its payload (R71). -/
theorem responseTo_of_packOf {t : FrameType} {i : Instr} (h : Safety.packOf t.nibble.toNat = some i) (q : Request) :
    ∃ w, responseTo i q = packResponse w (q.payload t) q := by
  cases t <;> cases h <;> exact ⟨_, rfl⟩

/-- What the pack operation of one kind produced is TypeMismatch for the unpack operation of another kind of the same
length (R115). -/
theorem exec_unpack_of_produced {i j : Instr} {t t' : FrameType} {s u : State} {w : Bool} {n : Nat} {bytes : List Byte}
    (hi : responseTo i s.inp.req = packResponse w (s.inp.req.payload t) s.inp.req) (hj : ∀ s, exec j s = unpack t' s)
    (hlen : t.len = t'.len) (hne : t ≠ t') (hu : u.inp.req.wf = true)
    (h : exec i s = Safety.answered s (.done w (Safety.produced n bytes))) :
    exec j (u.present (u.inp.req.withBuffer bytes)) =
      Safety.answered (u.present (u.inp.req.withBuffer bytes)) (.error .typeMismatch) := by
  have hwf := s.inp.req.payload_wf t
  have ht := s.inp.req.packet_payload_type t
  obtain ⟨hexec, -, -⟩ := exec_builds_packet hi hwf
  have hobuf := congrArg (fun r : Response => r.results.bind Results.obuf) (answered_injective (hexec.symm.trans h))
  obtain rfl := Option.some.inj hobuf
  rw [hj, unpack_eq, State.present_req,
    unpackResponse_withBuffer_of_ne hu hwf (ht.symm ▸ hlen) (ht.symm ▸ hne), Safety.answered_eq]

-- Unpacking what was packed (R116)

/-- The results of the INFO packet carry the message. -/
theorem carriesMessage_packet (q : Request) :
    Safety.CarriesMessage q (Results.ofPacket (q.packet (.info q.infoPayload))) := by
  have hle : firstTerminator q.infoPayload ≤ q.msgTaken := by
    by_contra hlt
    exact firstTerminator_before (not_le.1 hlt)
      (Request.infoPayload_padding le_rfl (Nat.lt_succ_of_le q.msgTaken_le))
  refine ⟨q.infoPayload, firstTerminator q.infoPayload, rfl, rfl, q.infoPayload_length,
    fun j hj => Request.infoPayload_message hj, fun j hj hj' => Request.infoPayload_padding hj hj', hle,
    fun j hj hz => ?_, fun hn => ?_⟩
  · have hmsg := Request.infoPayload_message (hj.trans_le hle)
    exact firstTerminator_before hj (hmsg.trans (congrArg some hz))
  · have hat := firstTerminator_at (buf := q.infoPayload)
      ((hn.trans_le q.msgTaken_le).trans (by simp))
    rw [Request.infoPayload_message hn] at hat
    exact Option.some.inj hat

/-- The results of the packet built from a request's operands carry them. -/
theorem carries_packet {t : FrameType} (ht : t ≠ .null) (q : Request) :
    Safety.Carries t.nibble.toNat q (Results.ofPacket (q.packet (q.payload t))) := by
  refine ⟨?_, congrArg some q.flags_eq_ofNat, congrArg some q.time_eq_ofNat, ?_⟩
  · rw [BitVec.ofNat_toNat, BitVec.setWidth_eq]
    exact congrArg (fun u : FrameType => some u.nibble) (q.payload_type t)
  · cases t with
    | null => exact absurd rfl ht
    | motion | environmental | secondaryAccel | altitude | command => rfl
    | airQuality =>
      show [sext32 (lowHalf q.x[0]), sext32 (lowHalf q.x[1])] = [Safety.half q.x[0], Safety.half q.x[1]]
      rw [sext32_lowHalf, sext32_lowHalf]
    | orientation =>
      show [sext32 (lowHalf q.x[0]), sext32 (lowHalf q.x[1]), sext32 (lowHalf q.x[2])] =
        [Safety.half q.x[0], Safety.half q.x[1], Safety.half q.x[2]]
      rw [sext32_lowHalf, sext32_lowHalf, sext32_lowHalf]
    | info => exact ⟨rfl, carriesMessage_packet q⟩

-- Packing what was unpacked (R116)

/-- A 300-byte buffer that holds the message bytes taken and the terminator after them is the INFO payload. -/
theorem Request.infoPayload_eq {q : Request} {buf : List Byte} (hlen : buf.length = 300)
    (hmsg : ∀ j, j < q.msgTaken → buf[j]? = some (q.msg.read j))
    (hpad : ∀ j, q.msgTaken ≤ j → j < 300 → buf[j]? = some Config.terminator) : q.infoPayload = buf := by
  refine List.ext_getElem? fun j => ?_
  by_cases hj : j < 300
  · by_cases hm : j < q.msgTaken
    · rw [Request.infoPayload_message hm, hmsg j hm]
    · rw [Request.infoPayload_padding (not_lt.1 hm) hj, hpad j (not_lt.1 hm) hj]
  · rw [List.getElem?_eq_none (by simpa using hj), List.getElem?_eq_none (by omega)]

/-- A request that presents the slots of a payload, and its INFO buffer if it has one, presents the payload. -/
theorem Request.payload_of_slots {q : Request} {p : Payload}
    (hx : ∀ n (hn : n < 9) v, (Payload.slots p)[n]? = some v → q.x[n] = v)
    (hinfo : ∀ buf, Payload.infoBuf? p = some buf → q.infoPayload = buf) : q.payload p.type = p := by
  cases p with
  | null | command => rfl
  | info buf => exact congrArg Payload.info (hinfo buf rfl)
  | motion fields =>
    simp only [Payload.type, Request.payload, Request.motion, hx 0 (by decide) _ rfl, hx 1 (by decide) _ rfl,
      hx 2 (by decide) _ rfl, hx 3 (by decide) _ rfl, hx 4 (by decide) _ rfl, hx 5 (by decide) _ rfl,
      hx 6 (by decide) _ rfl, hx 7 (by decide) _ rfl, hx 8 (by decide) _ rfl]
  | environmental fields =>
    simp only [Payload.type, Request.payload, Request.environmental, hx 0 (by decide) _ rfl, hx 1 (by decide) _ rfl,
      hx 2 (by decide) _ rfl, hx 3 (by decide) _ rfl]
  | airQuality fields =>
    simp only [Payload.type, Request.payload, Request.airQuality, hx 0 (by decide) _ rfl, hx 1 (by decide) _ rfl,
      lowHalf_sext32]
  | secondaryAccel fields =>
    simp only [Payload.type, Request.payload, Request.secondaryAccel, hx 0 (by decide) _ rfl, hx 1 (by decide) _ rfl,
      hx 2 (by decide) _ rfl]
  | altitude fields => simp only [Payload.type, Request.payload, Request.altitude, hx 0 (by decide) _ rfl]
  | orientation fields =>
    simp only [Payload.type, Request.payload, Request.orientation, hx 0 (by decide) _ rfl, hx 1 (by decide) _ rfl,
      hx 2 (by decide) _ rfl, lowHalf_sext32]

theorem Payload.infoBuf?_length {p : Payload} {buf : List Byte} (hp : p.wf = true) (hbuf : Payload.infoBuf? p = some buf) :
    buf.length = 300 := by
  cases p with
  | info => cases hbuf; simpa [Payload.wf] using hp
  | _ => cases hbuf

/-- The INFO buffer of results that are padded with zeros is the INFO payload of a request that presents them. -/
theorem Request.infoPayload_of_presents {q : Request} {r : Results} {buf : List Byte} (hlen : buf.length = 300)
    (hbuf : r.infoBuf = some buf) (hq : Safety.Presents q r) (hz : Safety.PaddedWithZeros r) : q.infoPayload = buf := by
  obtain ⟨-, -, -, hmsg⟩ := hq
  obtain ⟨hq_len, hq_le, hread⟩ := hmsg buf hbuf
  obtain ⟨n, hn, hz_len, hpad⟩ := hz buf hbuf
  have htaken : q.msgTaken = q.msgLen.toNat ∧ n = q.msgLen.toNat := by
    have heq := congrArg BitVec.toNat (Option.some.inj (hz_len.symm.trans hq_len))
    rw [BitVec.toNat_ofNat, BitVec.toNat_ofNat] at heq
    rw [Request.msgTaken, Config.msgCap_eq]
    omega
  obtain ⟨htaken, rfl⟩ := htaken
  exact Request.infoPayload_eq hlen (htaken ▸ hread) (htaken ▸ hpad)

/-- A request that presents the results of a well-formed packet, padded with zeros if it is INFO, presents the packet. -/
theorem Request.packet_of_presents {q : Request} {p : Packet} {t : FrameType} (ht : p.payload.type = t)
    (hp : p.payload.wf = true) (hq : Safety.Presents q (Results.ofPacket p))
    (hz : Safety.PaddedWithZeros (Results.ofPacket p)) : q.packet (q.payload t) = p := by
  have hinfo : ∀ buf, Payload.infoBuf? p.payload = some buf → q.infoPayload = buf := fun buf hbuf =>
    Request.infoPayload_of_presents (Payload.infoBuf?_length hp hbuf) hbuf hq hz
  obtain ⟨hflags, htime, hx, -⟩ := hq
  rw [Request.packet, ← ht, Request.payload_of_slots (fun n hn v hv => hx ⟨n, hn⟩ v hv) hinfo, q.flags_eq_ofNat,
    q.time_eq_ofNat, ← Option.some.inj hflags, ← Option.some.inj htime]

end Machine

end Sys2Proof

namespace Sys2Proof.Proofs

open Sys2Proof.Machine Sys2Proof.Safety

/-- Settles O16: the slots are nine 32-bit fields. -/
theorem unpackMotionReadsThePacket : Obligations.UnpackMotionReadsThePacket :=
  ⟨rfl, fun _ => exec_unpack_outcomes (t := .motion) rfl fun ht =>
    Results.ofPacket_read_headerAnd ht rfl (by simp only [field32_eq_get32]; rfl)⟩

/-- Settles O17: the slots are four 32-bit fields. -/
theorem unpackEnvironmentalReadsThePacket : Obligations.UnpackEnvironmentalReadsThePacket :=
  ⟨rfl, fun _ => exec_unpack_outcomes (t := .environmental) rfl fun ht =>
    Results.ofPacket_read_headerAnd ht rfl (by simp only [field32_eq_get32]; rfl)⟩

/-- Settles O18: the slots are two sign-extended 16-bit fields. -/
theorem unpackAirQualityReadsThePacket : Obligations.UnpackAirQualityReadsThePacket :=
  ⟨rfl, fun _ => exec_unpack_outcomes (t := .airQuality) rfl fun ht =>
    Results.ofPacket_read_headerAnd ht rfl (by simp only [field16_eq_get16]; rfl)⟩

/-- Settles O19: the slots are three 32-bit fields. -/
theorem unpackSecondaryAccelReadsThePacket : Obligations.UnpackSecondaryAccelReadsThePacket :=
  ⟨rfl, fun _ => exec_unpack_outcomes (t := .secondaryAccel) rfl fun ht =>
    Results.ofPacket_read_headerAnd ht rfl (by simp only [field32_eq_get32]; rfl)⟩

/-- Settles O20: the slot is one 32-bit field. -/
theorem unpackAltitudeReadsThePacket : Obligations.UnpackAltitudeReadsThePacket :=
  ⟨rfl, fun _ => exec_unpack_outcomes (t := .altitude) rfl fun ht =>
    Results.ofPacket_read_headerAnd ht rfl (by simp only [field32_eq_get32]; rfl)⟩

/-- Settles O21: the slots are three sign-extended 16-bit fields. -/
theorem unpackOrientationReadsThePacket : Obligations.UnpackOrientationReadsThePacket :=
  ⟨rfl, fun _ => exec_unpack_outcomes (t := .orientation) rfl fun ht =>
    Results.ofPacket_read_headerAnd ht rfl (by simp only [field16_eq_get16]; rfl)⟩

/-- Settles O22: there is no slot. -/
theorem unpackCommandIsTheHeaderAlone : Obligations.UnpackCommandIsTheHeaderAlone :=
  ⟨rfl, fun _ => exec_unpack_outcomes (t := .command) rfl fun ht => Results.ofPacket_read_headerAnd ht rfl rfl⟩

/-- Settles O23: the payload is the 300 bytes after the header, and `info_len` its first terminator. -/
theorem unpackInfoReadsThePacket : Obligations.UnpackInfoReadsThePacket := by
  refine ⟨rfl, fun s => ?_⟩
  obtain ⟨hsize, htype, hok⟩ := exec_unpack_outcomes (i := .unpackInfo) (t := .info) (s := s) rfl Results.ofPacket_read
  refine ⟨hsize, htype, fun hl ht => ?_⟩
  obtain ⟨hle, hbefore, hat⟩ := firstTerminator_range_map (fun j => s.inp.req.ibuf.read (3 + j)) 300
  exact ⟨_, hle, hbefore, hat, hok hl ht⟩

/-- Settles O24: the unpack procedure looks at the length first. -/
theorem unpackEnforcesTheSize : Obligations.UnpackEnforcesTheSize := by
  intro k i hk s hs
  obtain ⟨t, -, -, hlen, he⟩ := exists_frameType_of_unpackOf hk
  rw [he]
  exact unpack_of_length (by omega)

/-- Settles O25: the unpack procedure looks at the type next, and a packet carries its own. -/
theorem unpackGuardsTheType : Obligations.UnpackGuardsTheType := by
  refine ⟨fun k i hk s hl hn => ?_, fun s u hu bytes => ⟨?_, ?_⟩⟩
  · obtain ⟨t, -, rfl, hlen, he⟩ := exists_frameType_of_unpackOf hk
    rw [he]
    exact unpack_of_type (hl.trans hlen) (mt typeNibble_eq_iff.2 hn)
  · exact exec_unpack_of_produced (t := .altitude) (t' := .airQuality) rfl (fun _ => rfl) rfl (by decide) hu
  · exact exec_unpack_of_produced (t := .airQuality) (t' := .altitude) rfl (fun _ => rfl) rfl (by decide) hu

/-- Settles O26: a packet that was written is read back, and one that was read is written again. -/
theorem packAndUnpackAreInverse : Obligations.PackAndUnpackAreInverse := by
  refine ⟨fun k i j hi hj s u hu => ?_, fun k i j hi hj s u r hr hz hq => ?_⟩
  · obtain ⟨t, hne, rfl, -, he⟩ := exists_frameType_of_unpackOf hj
    obtain ⟨w, hw⟩ := responseTo_of_packOf hi s.inp.req
    have hwf := s.inp.req.payload_wf t
    have hread := unpackResponse_withBuffer hu (p := s.inp.req.packet (s.inp.req.payload t)) hwf
    rw [Request.packet_payload_type] at hread
    obtain ⟨hexec, -, -⟩ := exec_builds_packet hw hwf
    refine ⟨w, _, _, _, hexec, rfl, ?_, carries_packet hne s.inp.req⟩
    rw [he, unpack_eq, State.present_req, hread]
    rfl
  · obtain ⟨t, -, rfl, hlen, he⟩ := exists_frameType_of_unpackOf hj
    obtain ⟨w, hw⟩ := responseTo_of_packOf hi u.inp.req
    rw [he, unpack_eq, ← answered_eq] at hr
    obtain ⟨-, htype, rfl⟩ := unpackResponse_done (answered_injective hr)
    have hpacket := Request.packet_of_presents (Payload.read_type t _) (Payload.read_wf t _) hq hz
    obtain ⟨hexec, hbytes, -⟩ := exec_builds_packet hw (u.inp.req.payload_wf t)
    refine ⟨w, _, _, hexec, rfl, ?_, fun a ha => ?_⟩
    · rw [hbytes, Request.payload_type, hlen]
    · rw [hpacket, Packet.bytes_read htype, List.getElem?_map, List.getElem?_range (hlen ▸ ha), Option.map_some]

end Sys2Proof.Proofs
end

section
/-!
The dispatcher (R121 to R127): the answers of `decode` by the buffer's type and length, its agreement with the unpack operation of that
type, and the instructions that can answer TypeMismatch.
-/

namespace Sys2Proof.Machine

-- The type a buffer's nibble names (R54)

@[simp] theorem lengthOf_nibble (t : FrameType) : Safety.lengthOf t.nibble.toNat = t.len := by
  cases t <;> rfl

theorem ofNibble_of_typeNibble {q : Request} {t : FrameType} (ht : Safety.typeNibble q = t.nibble.toNat) :
    FrameType.ofNibble (hiNibble (q.ibuf.read 0)) = some t := by
  rw [typeNibble_eq_iff.1 ht, FrameType.ofNibble_nibble]

/-- A nibble up to 8 names a frame type. -/
theorem exists_frameType_of_typeNibble_le {q : Request} (h : Safety.typeNibble q ≤ 8) :
    ∃ t : FrameType, Safety.typeNibble q = t.nibble.toNat := by
  cases ht : FrameType.ofNibble (hiNibble (q.ibuf.read 0)) with
  | none => exact absurd (FrameType.ofNibble_none.1 ht) (by rw [← Safety.typeNibble_eq]; omega)
  | some t => exact ⟨t, typeNibble_eq_iff.2 (FrameType.nibble_of_ofNibble ht).symm⟩

-- The answers of `decode` (R121)

/-- No byte holds no type nibble (R121). -/
theorem decodeResponse_of_zero {q : Request} (h : q.ibufLen.toNat = 0) : decodeResponse q = .error .truncatedBuffer := by
  rw [decodeResponse, decodePacket_error.2 (.inl ⟨by omega, rfl⟩)]

/-- A buffer shorter than its type's packet is TruncatedBuffer (R121). -/
theorem decodeResponse_of_lt {q : Request} {t : FrameType} (ht : Safety.typeNibble q = t.nibble.toNat)
    (hl : q.ibufLen.toNat < t.len) : decodeResponse q = .error .truncatedBuffer := by
  by_cases h0 : q.ibufLen.toNat = 0
  · exact decodeResponse_of_zero h0
  · rw [decodeResponse,
      decodePacket_error.2 (.inr (.inr ⟨by omega, t, ofNibble_of_typeNibble ht, .inl ⟨hl, rfl⟩⟩))]

/-- A buffer longer than its type's packet is SizeMismatch (R121, decision D13). -/
theorem decodeResponse_of_gt {q : Request} {t : FrameType} (ht : Safety.typeNibble q = t.nibble.toNat)
    (hl : t.len < q.ibufLen.toNat) : decodeResponse q = .error .sizeMismatch := by
  rw [decodeResponse,
    decodePacket_error.2 (.inr (.inr ⟨by omega, t, ofNibble_of_typeNibble ht, .inr ⟨hl, rfl⟩⟩))]

/-- A buffer of its type's length gives the packet (R121). -/
theorem decodeResponse_of_eq {q : Request} {t : FrameType} (ht : Safety.typeNibble q = t.nibble.toNat)
    (hl : q.ibufLen.toNat = t.len) : decodeResponse q = packetResponse (Packet.read t q.ibuf.read) := by
  rw [decodeResponse, decodePacket_ok.2 ⟨t, ofNibble_of_typeNibble ht, hl, rfl⟩]

/-- What `decode` does is fixed by its response. -/
theorem exec_decode_of_response {s : State} {r : Response} (h : decodeResponse s.inp.req = r) :
    exec .decode s = Safety.answered s r := by
  rw [exec_eq_answered, responseTo, h]

/-- A 3-byte NULL packet gives its header alone (R122). -/
theorem exec_decode_of_null {s : State} (ht : Safety.typeNibble s.inp.req = 0) (hl : s.inp.req.ibufLen.toNat = 3) :
    exec .decode s = Safety.answered s (.done false (Safety.headerAnd s.inp.req [])) := by
  have hnull : Safety.typeNibble s.inp.req = FrameType.null.nibble.toNat := ht
  rw [exec_decode_of_response (decodeResponse_of_eq hnull hl), packetResponse,
    Results.ofPacket_read_headerAnd (xs := []) hnull rfl rfl]

-- `decode` and the unpack operations (R124, R127)

/-- From the length of its type's packet on, `decode` answers what the unpack procedure of the type answers (R127). -/
theorem exec_decode_eq_unpack {s : State} {t : FrameType} (ht : Safety.typeNibble s.inp.req = t.nibble.toNat)
    (hl : t.len ≤ s.inp.req.ibufLen.toNat) : exec .decode s = unpack t s := by
  obtain heq | hgt := hl.eq_or_lt
  · exact execDecode_eq_unpack heq.symm (ofNibble_of_typeNibble ht)
  · rw [exec_decode_of_response (decodeResponse_of_gt ht hgt), unpack_of_length hgt.ne', Safety.answered_eq]

/-- Where an unpack operation completes, `decode` completes with the same results. -/
theorem exec_decode_of_unpack_done {k : Nat} {j : Instr} {s : State} {w : Bool} {r : Results}
    (hj : Safety.unpackOf k = some j) (h : exec j s = Safety.answered s (.done w r)) :
    exec .decode s = Safety.answered s (.done w r) := by
  obtain ⟨t, -, -, -, he⟩ := exists_frameType_of_unpackOf hj
  have hdone : unpackResponse t s.inp.req = .done w r :=
    answered_injective ((unpack_eq t s).symm.trans ((he s).symm.trans h))
  obtain ⟨hl, ht, -⟩ := unpackResponse_done hdone
  rw [exec_decode_eq_unpack (typeNibble_eq_iff.2 ht) hl.ge, ← he, h]

/-- Every kind that is packed is unpacked (R71). -/
theorem exists_unpackOf_of_packOf {k : Nat} {i : Instr} (h : Safety.packOf k = some i) :
    ∃ j, Safety.unpackOf k = some j := by
  unfold Safety.packOf at h
  split at h <;> cases h <;> exact ⟨_, rfl⟩

-- Which instructions answer TypeMismatch (R126, R146)

/-- The status on the port after an instruction is that of its response. -/
theorem responseTo_status_of_exec_next {i : Instr} {s t : State} {st : Status} (h : exec i s = .next t)
    (hst : t.status = some st) : (responseTo i s.inp.req).status = st := by
  obtain rfl := exec_next h
  exact Option.some.inj hst

/-- The rows of R146 that list TypeMismatch are those of the unpack operations. -/
theorem exists_unpackOf_of_typeMismatch_mem {i : Instr} (h : Status.typeMismatch ∈ Safety.statuses i) :
    ∃ k, Safety.unpackOf k = some i := by
  cases i with
  | unpackMotion => exact ⟨1, rfl⟩
  | unpackEnvironmental => exact ⟨2, rfl⟩
  | unpackAirQuality => exact ⟨3, rfl⟩
  | unpackSecondaryAccel => exact ⟨4, rfl⟩
  | unpackAltitude => exact ⟨5, rfl⟩
  | unpackOrientation => exact ⟨6, rfl⟩
  | unpackCommand => exact ⟨7, rfl⟩
  | unpackInfo => exact ⟨8, rfl⟩
  | _ => simp [Safety.statuses] at h

theorem frameInfoResponse_status (flags : Nibble) (time : Half) (buf : List Byte) :
    (frameInfoResponse flags time buf).status =
      if buf.length < Config.infoSize then .truncatedBuffer
      else if Config.infoSize < buf.length then .sizeMismatch
      else .ok := by
  unfold frameInfoResponse
  split_ifs <;> rfl

/-- A received packet is never TypeMismatch. -/
theorem responseTo_status_ne_typeMismatch_of_frame {i : Instr} {t : FrameType} (h : Laws.frameType? i = some t)
    (q : Request) : (responseTo i q).status ≠ .typeMismatch := by
  cases i with
  | frameInfo flags time buf =>
    rw [responseTo, frameInfoResponse_status]
    split_ifs <;> decide
  | frameNull | frameMotion | frameEnvironmental | frameAirQuality | frameSecondaryAccel | frameAltitude
  | frameOrientation | frameCommand => exact nofun
  | _ => cases h

end Sys2Proof.Machine

namespace Sys2Proof.Proofs

open Sys2Proof.Machine Sys2Proof.Safety

/-- Settles O27: no type nibble, an unassigned type, a length below, above and at the type's, and the NULL packet. -/
theorem decodeSelectsByTheNibble : Obligations.DecodeSelectsByTheNibble := by
  refine ⟨rfl, fun s => ⟨fun h0 => ?_, fun hl hn => ?_, fun _ hn hlt => ?_, fun hn hgt => ?_, fun i hi hl => ?_,
    exec_decode_of_null⟩⟩
  · exact exec_decode_of_response (decodeResponse_of_zero h0)
  · exact exec_decode_of_response (decodeResponse_of_unassigned hl (ofNibble_of_nine_le hn))
  · obtain ⟨t, ht⟩ := exists_frameType_of_typeNibble_le hn
    rw [ht, lengthOf_nibble] at hlt
    exact exec_decode_of_response (decodeResponse_of_lt ht hlt)
  · obtain ⟨t, ht⟩ := exists_frameType_of_typeNibble_le hn
    rw [ht, lengthOf_nibble] at hgt
    exact exec_decode_of_response (decodeResponse_of_gt ht hgt)
  · obtain ⟨t, -, ht, hlen, he⟩ := exists_frameType_of_unpackOf hi
    rw [hlen] at hl
    exact ⟨(exec_decode_eq_unpack ht.symm hl.ge).trans (he s).symm, _,
      exec_decode_of_response (decodeResponse_of_eq ht.symm hl)⟩

/-- Settles O28: NULL is an assigned type of length 3, and its packet the header alone. -/
theorem decodeOfNullIsHeaderOnly : Obligations.DecodeOfNullIsHeaderOnly := by
  intro s ht
  have hnull : typeNibble s.inp.req = FrameType.null.nibble.toNat := ht
  refine ⟨fun hlt => exec_decode_of_response (decodeResponse_of_lt hnull hlt),
    fun hgt => exec_decode_of_response (decodeResponse_of_gt hnull hgt), fun hl => ?_⟩
  rw [exec_decode_of_null ht hl, headerAnd, ht]
  rfl

/-- Settles O29: a byte 0 of 0x90 or more has a nibble of 9 or more. -/
theorem decodeRejectsUnknownTypes : Obligations.DecodeRejectsUnknownTypes := by
  refine fun s => ⟨fun hl hb => ?_, fun h0 => exec_decode_of_response (decodeResponse_of_zero h0)⟩
  have hn : 9 ≤ typeNibble s.inp.req := (Nat.le_div_iff_mul_le (by decide)).2 hb
  exact exec_decode_of_response (decodeResponse_of_unassigned hl (ofNibble_of_nine_le hn))

/-- Settles O30: the kind's unpack operation gives the operands back (R116), and `decode` completes where it does. -/
theorem decodeInvertsPack : Obligations.DecodeInvertsPack := by
  intro k i hi s u hu
  obtain ⟨j, hj⟩ := exists_unpackOf_of_packOf hi
  obtain ⟨w, r, bytes, r', hpack, hbytes, hunpack, hcarries⟩ := packAndUnpackAreInverse.1 k i j hi hj s u hu
  exact ⟨w, r, bytes, r', hpack, hbytes, exec_decode_of_unpack_done hj hunpack, hcarries⟩

/-- Settles O31: TypeMismatch stands in the rows of the unpack operations alone, and no received packet answers it. -/
theorem decodeNeverGivesTypeMismatch : Obligations.DecodeNeverGivesTypeMismatch := by
  refine ⟨fun s t hs hst => ?_, fun i s t hs hst => ?_⟩
  · have hmem := responseTo_status_mem (i := .decode) rfl s.inp.req
    rw [responseTo_status_of_exec_next hs hst] at hmem
    exact absurd hmem (by decide)
  · have hstatus := responseTo_status_of_exec_next hs hst
    cases hf : Laws.frameType? i with
    | none => exact exists_unpackOf_of_typeMismatch_mem (hstatus ▸ responseTo_status_mem hf s.inp.req)
    | some _ => exact absurd hstatus (responseTo_status_ne_typeMismatch_of_frame hf s.inp.req)

/-- Settles O32: at the type's length both give the packet, and above it both are SizeMismatch. -/
theorem decodeEqualsTheComposition : Obligations.DecodeEqualsTheComposition := by
  intro s i _ hi hl
  obtain ⟨t, -, ht, hlen, he⟩ := exists_frameType_of_unpackOf hi
  rw [he]
  exact exec_decode_eq_unpack ht.symm (hlen ▸ hl)

end Sys2Proof.Proofs
end

section
/-!
The errors and the warning (R138 to R143): which operation gives each status, exactly when, and what stands beside it.
-/

namespace Sys2Proof.Machine

-- The status on the port, and what stands beside it (R137, R146)

theorem status_eq_some_iff {i : Instr} {s t : State} {st : Status} (h : exec i s = .next t) :
    t.status = some st ↔ (responseTo i s.inp.req).status = st := by
  obtain rfl := exec_next h
  rw [State.respond_status, Option.some.injEq]

/-- No result stands beside an error (R137). -/
theorem results_eq_none_of_status {i : Instr} {s t : State} {st : Status} (h : exec i s = .next t) (hok : st ≠ .ok)
    (hwarn : st ≠ .messageTruncated) (hst : t.status = some st) : t.results = none := by
  obtain rfl := exec_next h
  obtain rfl := (status_eq_some_iff h).1 hst
  exact Option.not_isSome_iff_eq_none.1 (mt (Response.results_isSome_iff _).1 (not_or.2 ⟨hok, hwarn⟩))

/-- A status an operation gives is in its row of R146. -/
theorem status_mem_of_operation {c : BitVec 6} {i : Instr} {q : Request} {st : Status} (hi : (c, i) ∈ Safety.operations)
    (hst : (responseTo i q).status = st) : st ∈ Safety.statuses i :=
  hst ▸ responseTo_status_mem (frameType?_of_mem_operations hi) q

/-- A status that stands in the row of `j` alone is given by `j`, when `j` gives it. -/
theorem status_iff_of_only_row {c : BitVec 6} {i j : Instr} {q : Request} {st : Status} {P : Prop}
    (hi : (c, i) ∈ Safety.operations) (honly : ∀ p ∈ Safety.operations, st ∈ Safety.statuses p.2 → p.2 = j)
    (hj : (responseTo j q).status = st ↔ P) : (responseTo i q).status = st ↔ i = j ∧ P := by
  constructor
  · intro hst
    obtain rfl : i = j := honly _ hi (status_mem_of_operation hi hst)
    exact ⟨rfl, hj.1 hst⟩
  · rintro ⟨rfl, hP⟩
    exact hj.2 hP

/-- TruncatedBuffer stands in the rows of three operations (R138, R146). -/
theorem eq_of_truncatedBuffer_mem {c : BitVec 6} {i : Instr} (hi : (c, i) ∈ Safety.operations)
    (h : Status.truncatedBuffer ∈ Safety.statuses i) : i = .decodeHeader ∨ i = .typeOf ∨ i = .decode :=
  (by decide : ∀ p ∈ Safety.operations, Status.truncatedBuffer ∈ Safety.statuses p.2 →
    p.2 = .decodeHeader ∨ p.2 = .typeOf ∨ p.2 = .decode) _ hi h

/-- SizeMismatch stands in the rows of the unpack operations and of `decode` (R139, R146). -/
theorem exists_unpackOf_or_decode_of_sizeMismatch_mem {c : BitVec 6} {i : Instr} (hi : (c, i) ∈ Safety.operations)
    (h : Status.sizeMismatch ∈ Safety.statuses i) : (∃ k, Safety.unpackOf k = some i) ∨ i = .decode :=
  ((by decide : ∀ p ∈ Safety.operations, Status.sizeMismatch ∈ Safety.statuses p.2 →
    Status.typeMismatch ∈ Safety.statuses p.2 ∨ p.2 = .decode) _ hi h).imp_left exists_unpackOf_of_typeMismatch_mem

-- The statuses of `decode` and of the unpack operations by type and length (R105, R121)

/-- The status of `decode`, in the order of its checks (R121). -/
theorem decodeResponse_status (q : Request) :
    (decodeResponse q).status =
      if q.ibufLen.toNat = 0 then .truncatedBuffer
      else if 8 < Safety.typeNibble q then .unknownFrameType
      else if q.ibufLen.toNat < Safety.lengthOf (Safety.typeNibble q) then .truncatedBuffer
      else if Safety.lengthOf (Safety.typeNibble q) < q.ibufLen.toNat then .sizeMismatch
      else .ok := by
  by_cases h0 : q.ibufLen.toNat = 0
  · rw [if_pos h0, decodeResponse_of_zero h0]
    rfl
  by_cases hn : 8 < Safety.typeNibble q
  · rw [if_neg h0, if_pos hn, decodeResponse_of_unassigned (Nat.pos_of_ne_zero h0) (ofNibble_of_nine_le hn)]
    rfl
  obtain ⟨t, ht⟩ := exists_frameType_of_typeNibble_le (not_lt.1 hn)
  rw [if_neg h0, if_neg hn, ht, lengthOf_nibble]
  split_ifs with hlt hgt
  · rw [decodeResponse_of_lt ht hlt]
    rfl
  · rw [decodeResponse_of_gt ht hgt]
    rfl
  · rw [decodeResponse_of_eq ht (le_antisymm (not_lt.1 hgt) (not_lt.1 hlt))]
    rfl

theorem decodeResponse_truncatedBuffer_iff (q : Request) :
    (decodeResponse q).status = .truncatedBuffer ↔
      q.ibufLen.toNat = 0 ∨
        (Safety.typeNibble q ≤ 8 ∧ q.ibufLen.toNat < Safety.lengthOf (Safety.typeNibble q)) := by
  rw [decodeResponse_status]
  split_ifs <;> simp <;> omega

/-- A longer buffer has a byte 0, so the length 0 needs no exception here. -/
theorem decodeResponse_sizeMismatch_iff (q : Request) :
    (decodeResponse q).status = .sizeMismatch ↔
      Safety.typeNibble q ≤ 8 ∧ Safety.lengthOf (Safety.typeNibble q) < q.ibufLen.toNat := by
  rw [decodeResponse_status]
  split_ifs <;> simp <;> omega

theorem decodeResponse_unknownFrameType_iff (q : Request) :
    (decodeResponse q).status = .unknownFrameType ↔ 1 ≤ q.ibufLen.toNat ∧ 9 ≤ Safety.typeNibble q := by
  rw [decodeResponse_status]
  split_ifs <;> simp <;> omega

/-- The status of an unpack operation, in the order of its checks (R105). -/
theorem responseTo_status_of_unpackOf {k : Nat} {i : Instr} (hk : Safety.unpackOf k = some i) (q : Request) :
    (responseTo i q).status =
      if q.ibufLen.toNat ≠ Safety.lengthOf k then .sizeMismatch
      else if Safety.typeNibble q ≠ k then .typeMismatch
      else .ok := by
  obtain ⟨t, -, rfl, hlen, he⟩ := exists_frameType_of_unpackOf hk
  have hresponse : responseTo i q = unpackResponse t q :=
    answered_injective ((exec_eq_answered i (State.reset.present q)).symm.trans ((he _).trans (unpack_eq t _)))
  simp only [hresponse, unpackResponse_status, hlen, ne_eq, typeNibble_eq_iff]

theorem sizeMismatch_iff_of_unpackOf {k : Nat} {i : Instr} (hk : Safety.unpackOf k = some i) (q : Request) :
    (responseTo i q).status = .sizeMismatch ↔ q.ibufLen.toNat ≠ Safety.lengthOf k := by
  rw [responseTo_status_of_unpackOf hk]
  split_ifs <;> simp_all

theorem typeMismatch_iff_of_unpackOf {k : Nat} {i : Instr} (hk : Safety.unpackOf k = some i) (q : Request) :
    (responseTo i q).status = .typeMismatch ↔ q.ibufLen.toNat = Safety.lengthOf k ∧ Safety.typeNibble q ≠ k := by
  rw [responseTo_status_of_unpackOf hk]
  split_ifs <;> simp_all

-- The statuses of the other operations that give one beside OK (R81 to R83, R98)

theorem encodeHeaderResponse_invalidType_iff (q : Request) :
    (encodeHeaderResponse q).status = .invalidType ↔ 15 < q.typeIn.toNat := by
  simp [encodeHeaderResponse_status]

theorem decodeHeaderResponse_truncatedBuffer_iff (q : Request) :
    (decodeHeaderResponse q).status = .truncatedBuffer ↔ q.ibufLen.toNat < 3 := by
  simp [decodeHeaderResponse_status]

theorem typeOfResponse_truncatedBuffer_iff (q : Request) :
    (typeOfResponse q).status = .truncatedBuffer ↔ q.ibufLen.toNat = 0 := by
  simp [typeOfResponse_status]

theorem packInfo_messageTruncated_iff (q : Request) :
    (responseTo .packInfo q).status = .messageTruncated ↔ 299 < q.msgLen.toNat := by
  have hcut : q.msgCut = true ↔ 299 < q.msgLen.toNat := decide_eq_true_iff
  simp [responseTo, packResponse_status, hcut]

end Sys2Proof.Machine

namespace Sys2Proof.Proofs

open Sys2Proof.Machine Sys2Proof.Safety

/-- Settles O38: three operations list the status, and each gives it for a buffer too short for what it reads. -/
theorem truncatedBufferIsRaisedExactly : Obligations.TruncatedBufferIsRaisedExactly := by
  intro c i hi s t h
  refine ⟨(status_eq_some_iff h).trans ⟨fun hst => ?_, ?_⟩, results_eq_none_of_status h (by decide) (by decide)⟩
  · obtain rfl | rfl | rfl := eq_of_truncatedBuffer_mem hi (status_mem_of_operation hi hst)
    · exact .inl ⟨rfl, (decodeHeaderResponse_truncatedBuffer_iff _).1 hst⟩
    · exact .inr (.inl ⟨rfl, (typeOfResponse_truncatedBuffer_iff _).1 hst⟩)
    · exact .inr (.inr ⟨rfl, (decodeResponse_truncatedBuffer_iff _).1 hst⟩)
  · rintro (⟨rfl, hl⟩ | ⟨rfl, hl⟩ | ⟨rfl, hl⟩)
    · exact (decodeHeaderResponse_truncatedBuffer_iff _).2 hl
    · exact (typeOfResponse_truncatedBuffer_iff _).2 hl
    · exact (decodeResponse_truncatedBuffer_iff _).2 hl

/-- Settles O39: an unpack operation gives it for any other length, `decode` for a longer one. -/
theorem sizeMismatchIsRaisedExactly : Obligations.SizeMismatchIsRaisedExactly := by
  intro c i hi s t h
  refine ⟨(status_eq_some_iff h).trans ⟨fun hst => ?_, ?_⟩, results_eq_none_of_status h (by decide) (by decide)⟩
  · obtain ⟨k, hk⟩ | rfl := exists_unpackOf_or_decode_of_sizeMismatch_mem hi (status_mem_of_operation hi hst)
    · exact .inl ⟨k, hk, (sizeMismatch_iff_of_unpackOf hk _).1 hst⟩
    · exact .inr ⟨rfl, (decodeResponse_sizeMismatch_iff _).1 hst⟩
  · rintro (⟨k, hk, hl⟩ | ⟨rfl, hl⟩)
    · exact (sizeMismatch_iff_of_unpackOf hk _).2 hl
    · exact (decodeResponse_sizeMismatch_iff _).2 hl

/-- Settles O40: `decode` alone lists the status, and gives it when the nibble is unassigned. -/
theorem unknownFrameTypeIsRaisedExactly : Obligations.UnknownFrameTypeIsRaisedExactly := by
  intro c i hi s t h
  exact ⟨(status_eq_some_iff h).trans
      (status_iff_of_only_row hi (by decide) (decodeResponse_unknownFrameType_iff s.inp.req)),
    results_eq_none_of_status h (by decide) (by decide)⟩

/-- Settles O41: the unpack operations alone list the status, and give it when the length is right and the type is not. -/
theorem typeMismatchIsRaisedExactly : Obligations.TypeMismatchIsRaisedExactly := by
  intro c i hi s t h
  refine ⟨(status_eq_some_iff h).trans ⟨fun hst => ?_, ?_⟩, results_eq_none_of_status h (by decide) (by decide)⟩
  · obtain ⟨k, hk⟩ := exists_unpackOf_of_typeMismatch_mem (status_mem_of_operation hi hst)
    exact ⟨k, hk, (typeMismatch_iff_of_unpackOf hk _).1 hst⟩
  · rintro ⟨k, hk, hne⟩
    exact (typeMismatch_iff_of_unpackOf hk _).2 hne

/-- Settles O42: `encode_header` alone lists the status, and gives it when the type does not fit in 4 bits. -/
theorem invalidTypeIsRaisedExactly : Obligations.InvalidTypeIsRaisedExactly := by
  intro c i hi s t h
  exact ⟨(status_eq_some_iff h).trans
      (status_iff_of_only_row hi (by decide) (encodeHeaderResponse_invalidType_iff s.inp.req)),
    results_eq_none_of_status h (by decide) (by decide)⟩

/-- Settles O43: `pack_info` alone lists the warning, and the packet beside it is that of R98 with 299 bytes taken. -/
theorem messageTruncatedIsAWarning : Obligations.MessageTruncatedIsAWarning := by
  intro c i hi s t h
  have hwarn : t.status = some .messageTruncated ↔ i = .packInfo ∧ 299 < s.inp.req.msgLen.toNat :=
    (status_eq_some_iff h).trans (status_iff_of_only_row hi (by decide) (packInfo_messageTruncated_iff _))
  refine ⟨hwarn, fun hst => ?_⟩
  obtain ⟨rfl, hcut⟩ := hwarn.1 hst
  obtain ⟨bytes, hexec, hlen, hheader, hmessage, hpadding⟩ := packInfoCopiesAndPads.2 s
  obtain rfl := Host.Outcome.next.inj (h.symm.trans hexec)
  have htaken : min s.inp.req.msgLen.toNat 299 = 299 := min_eq_right hcut.le
  rw [htaken] at hmessage hpadding
  exact ⟨bytes, hlen, rfl, hheader, hmessage, hpadding 299 le_rfl (by decide)⟩

end Sys2Proof.Proofs
end

section
/-!
One response for each request, and a function of the request alone (R158, R159).
-/

namespace Sys2Proof.Proofs

open Sys2Proof.Machine Sys2Proof.Safety

/-- Settles O51: the function is `servedResponse`, and the step that serves a request gives that response once. -/
theorem everyRequestGetsOneResponse : Obligations.EveryRequestGetsOneResponse := by
  refine ⟨servedResponse, fun s hs => ⟨_, step_of_serving hs, ?_, ?_, ?_, ?_, ?_⟩⟩
  · exact State.respond_rspValid _ s
  · exact State.respond_rsp _ s
  · exact State.respond_status _ s
  · exact State.respond_results _ s
  · exact State.respond_trace _ s

/-- Settles O54: both states are answered by the function of O51, which takes the shared request and nothing else. -/
theorem responseDependsOnTheRequestOnly : Obligations.ResponseDependsOnTheRequestOnly := by
  intro s u hs hu hreq
  obtain ⟨f, hf⟩ := everyRequestGetsOneResponse
  obtain ⟨t, ht, -, htrsp, -⟩ := hf s hs
  obtain ⟨v, hv, -, hvrsp, -⟩ := hf u hu
  rw [← hreq] at hvrsp
  exact ⟨t, v, f s.inp.req, ht, hv, htrsp, hvrsp⟩

end Sys2Proof.Proofs
end

section
/-!
The encodings (R51 to R72): an instruction is an operation with its code or a packet with its bytes, and decoding and encoding are each
other's inverse on both; the bytes of a packet stand at the indices of its layout.
-/

namespace Sys2Proof

-- The two formats (R51, R71)

theorem Packet.encode_toInstr (p : Packet) : encode p.toInstr = .packet p.bytes := by
  obtain ⟨flags, time, payload⟩ := p
  cases payload <;> rfl

theorem Packet.toInstr_wf (p : Packet) : p.toInstr.wf = p.payload.wf := by
  obtain ⟨flags, time, payload⟩ := p
  cases payload <;> rfl

/-- Every instruction is one of the twenty operations, or a packet. -/
theorem Instr.operation_or_packet (i : Instr) :
    (∃ c, (c, i) ∈ Safety.operations) ∨ ∃ p : Packet, p.toInstr = i := by
  cases i with
  | frameNull flags time => exact .inr ⟨⟨flags, time, .null⟩, rfl⟩
  | frameMotion flags time p => exact .inr ⟨⟨flags, time, .motion p⟩, rfl⟩
  | frameEnvironmental flags time p => exact .inr ⟨⟨flags, time, .environmental p⟩, rfl⟩
  | frameAirQuality flags time p => exact .inr ⟨⟨flags, time, .airQuality p⟩, rfl⟩
  | frameSecondaryAccel flags time p => exact .inr ⟨⟨flags, time, .secondaryAccel p⟩, rfl⟩
  | frameAltitude flags time p => exact .inr ⟨⟨flags, time, .altitude p⟩, rfl⟩
  | frameOrientation flags time p => exact .inr ⟨⟨flags, time, .orientation p⟩, rfl⟩
  | frameCommand flags time => exact .inr ⟨⟨flags, time, .command⟩, rfl⟩
  | frameInfo flags time buf => exact .inr ⟨⟨flags, time, .info buf⟩, rfl⟩
  | _ => exact .inl (by simp [Safety.operations])

/-- An operation of the table decodes from its code, is well-formed, and encodes to its code. -/
theorem encode_of_mem_operations {c : BitVec 6} {i : Instr} (h : (c, i) ∈ Safety.operations) :
    decodeOp c = .ok i ∧ i.wf = true ∧ encode i = .op c :=
  (by decide : ∀ p ∈ Safety.operations, decodeOp p.1 = .ok p.2 ∧ p.2.wf = true ∧ encode p.2 = .op p.1) _ h

-- Packets (R51, R65)

/-- A buffer that holds exactly the bytes of a well-formed packet decodes to the packet. -/
theorem decodePacket_of_bytes {p : Packet} (hp : p.payload.wf = true) {rd : Nat → Byte}
    (hrd : ∀ a (ha : a < p.bytes.length), rd a = p.bytes[a]) : decodePacket p.bytes.length rd = .ok p := by
  have hlen := Packet.bytes_length hp
  have htype : hiNibble (rd 0) = p.payload.type.nibble := by
    rw [hrd 0 (hlen ▸ Nat.zero_lt_of_lt p.payload.type.three_le_len)]
    exact hiNibble_append _ _
  exact decodePacket_ok.2 ⟨p.payload.type, by rw [htype, FrameType.ofNibble_nibble], hlen, (Packet.read_of_bytes hp hrd).symm⟩

theorem decode_packet_bytes {p : Packet} (hp : p.payload.wf = true) : decode (.packet p.bytes) = .ok p.toInstr := by
  rw [decode, decodePacket_of_bytes hp fun a ha => List.getD_eq_getElem _ _ ha]
  rfl

/-- Bytes that decode to a packet are the bytes of the packet, which is well-formed. -/
theorem bytes_of_decodePacket {bytes : List Byte} {p : Packet}
    (h : decodePacket bytes.length (fun a => bytes.getD a 0) = .ok p) : p.payload.wf = true ∧ p.bytes = bytes := by
  obtain ⟨t, ht, hlen, rfl⟩ := decodePacket_ok.1 h
  refine ⟨Payload.read_wf t _, ?_⟩
  rw [Packet.bytes_read (FrameType.nibble_of_ofNibble ht).symm, ← hlen]
  exact List.ext_getElem (by simp) fun a _ ha => by simp [ha]

-- The layouts (R56 to R64)

namespace Safety

/-- Bytes 0 to 2 of a packet are its header. -/
theorem fieldAt_frame_header (p : Packet) :
    FieldAt p.bytes 0 1 (p.payload.type.nibble.toNat * 16 + p.flags.toNat) ∧ FieldAt p.bytes 1 2 p.time.toNat :=
  fieldAt_header _ _ _ _

/-- In a packet whose payload is 32-bit fields, each stands at its index. -/
theorem fieldAt_frame_words {p : Packet} {vs : List Word} (hp : p.payload.bytes = vs.flatMap put32) {i : Nat}
    (hi : i < vs.length) : FieldAt p.bytes (3 + 4 * i) 4 vs[i].toNat := by
  rw [Packet.bytes, hp]
  exact fieldAt_flatMap (value := BitVec.toNat) put32_length (fun pre v post => fieldAt_put32 pre v post rfl rfl rfl) _ vs hi

/-- In a packet whose payload is 16-bit fields, each stands at its index. -/
theorem fieldAt_frame_halves {p : Packet} {vs : List Half} (hp : p.payload.bytes = vs.flatMap put16) {i : Nat}
    (hi : i < vs.length) : FieldAt p.bytes (3 + 2 * i) 2 vs[i].toNat := by
  rw [Packet.bytes, hp]
  exact fieldAt_flatMap (value := BitVec.toNat) put16_length (fun pre v post => fieldAt_put16 pre v post rfl rfl rfl) _ vs hi

end Safety

end Sys2Proof

namespace Sys2Proof.Proofs

open Sys2Proof.Machine Sys2Proof.Safety

/-- Settles O35: an operation is decoded from its code, and a packet read from its bytes. -/
theorem decodeInvertsEncode : Obligations.DecodeInvertsEncode := by
  intro i hi
  obtain ⟨c, hc⟩ | ⟨p, rfl⟩ := i.operation_or_packet
  · obtain ⟨hdecode, -, hencode⟩ := encode_of_mem_operations hc
    rw [hencode]
    exact hdecode
  · rw [Packet.toInstr_wf] at hi
    rw [Packet.encode_toInstr, decode_packet_bytes hi]

/-- Settles O36: a code that decodes is in the table, and bytes that decode are those of the packet that was read. -/
theorem encodeInvertsDecode : Obligations.EncodeInvertsDecode := by
  intro e i h
  cases e with
  | op c =>
    obtain ⟨-, hwf, hencode⟩ := encode_of_mem_operations (mem_operations_of_decodeOp h)
    exact ⟨hwf, hencode⟩
  | packet bytes =>
    cases hd : decodePacket bytes.length fun a => bytes.getD a 0 with
    | error e =>
      rw [decode, hd] at h
      cases h
    | ok p =>
      rw [decode, hd] at h
      obtain rfl : p.toInstr = i := Except.ok.inj h
      obtain ⟨hwf, rfl⟩ := bytes_of_decodePacket hd
      exact ⟨p.toInstr_wf.trans hwf, p.encode_toInstr⟩

/-- Settles O34: the header, then the fields back to back from index 3. -/
theorem framesFollowTheirLayouts : Obligations.FramesFollowTheirLayouts := by
  intro f t
  have hheader (payload : Payload) := fieldAt_frame_header ⟨f, t, payload⟩
  refine ⟨⟨_, rfl, rfl, ?_⟩, fun p => ⟨_, rfl, rfl, ?_⟩, fun p => ⟨_, rfl, rfl, ?_⟩, fun p => ⟨_, rfl, rfl, ?_⟩,
    fun p => ⟨_, rfl, rfl, ?_⟩, fun p => ⟨_, rfl, rfl, ?_⟩, fun p => ⟨_, rfl, rfl, ?_⟩, ⟨_, rfl, rfl, ?_⟩,
    fun buf hlen => ⟨_, rfl, ?_, ?_⟩⟩
  · obtain ⟨hfirst, htime⟩ := hheader .null
    exact ⟨Nat.zero_add f.toNat ▸ hfirst, htime⟩
  · obtain ⟨hfirst, htime⟩ := hheader (.motion p)
    have hfield (i : Nat) (hi : i < 9) := fieldAt_frame_words (p := ⟨f, t, .motion p⟩) (vs := Payload.slots (.motion p)) rfl hi
    exact ⟨hfirst, htime, hfield 0 (by decide), hfield 1 (by decide), hfield 2 (by decide), hfield 3 (by decide),
      hfield 4 (by decide), hfield 5 (by decide), hfield 6 (by decide), hfield 7 (by decide), hfield 8 (by decide)⟩
  · obtain ⟨hfirst, htime⟩ := hheader (.environmental p)
    have hfield (i : Nat) (hi : i < 4) :=
      fieldAt_frame_words (p := ⟨f, t, .environmental p⟩) (vs := Payload.slots (.environmental p)) rfl hi
    exact ⟨hfirst, htime, hfield 0 (by decide), hfield 1 (by decide), hfield 2 (by decide), hfield 3 (by decide)⟩
  · obtain ⟨hfirst, htime⟩ := hheader (.airQuality p)
    have hfield (i : Nat) (hi : i < 2) := fieldAt_frame_halves (p := ⟨f, t, .airQuality p⟩) (vs := [p.co2, p.tvoc]) rfl hi
    exact ⟨hfirst, htime, hfield 0 (by decide), hfield 1 (by decide)⟩
  · obtain ⟨hfirst, htime⟩ := hheader (.secondaryAccel p)
    have hfield (i : Nat) (hi : i < 3) :=
      fieldAt_frame_words (p := ⟨f, t, .secondaryAccel p⟩) (vs := Payload.slots (.secondaryAccel p)) rfl hi
    exact ⟨hfirst, htime, hfield 0 (by decide), hfield 1 (by decide), hfield 2 (by decide)⟩
  · obtain ⟨hfirst, htime⟩ := hheader (.altitude p)
    have hfield := fieldAt_frame_words (p := ⟨f, t, .altitude p⟩) (vs := Payload.slots (.altitude p)) rfl Nat.one_pos
    exact ⟨hfirst, htime, hfield⟩
  · obtain ⟨hfirst, htime⟩ := hheader (.orientation p)
    have hfield (i : Nat) (hi : i < 3) :=
      fieldAt_frame_halves (p := ⟨f, t, .orientation p⟩) (vs := [p.pitch, p.roll, p.yaw]) rfl hi
    exact ⟨hfirst, htime, hfield 0 (by decide), hfield 1 (by decide), hfield 2 (by decide)⟩
  · exact hheader .command
  · exact Packet.bytes_length (p := ⟨f, t, .info buf⟩) (by simpa [Payload.wf] using hlen)
  · obtain ⟨hfirst, htime⟩ := hheader (.info buf)
    exact ⟨hfirst, htime, fun j _ => Packet.bytes_getElem?_payload ⟨f, t, .info buf⟩ j⟩

/-- Settles O37: the codes are those of the table, and the three packets are read byte by byte. -/
theorem codesDecodeAsTheTableSays : Obligations.CodesDecodeAsTheTableSays :=
  ⟨rfl, rfl, rfl, rfl⟩

end Sys2Proof.Proofs
end

section
/-!
Steps and runs (R155, R158, R163): a step serves its request or gives no response, an invariant of what is observed is one of what is
served, and a run answers its requests in turn.
-/

namespace Sys2Proof.Machine

-- The two steps that answer a state (R155, R158)

/-- With `rst` asserted or no request presented there is no response. -/
theorem step_of_idle {s : State} (h : s.inp.rst = true ∨ s.inp.reqValid = false) : step s = .next s.noResponse.advance := by
  obtain hrst | hvalid := h
  · simp [step, hrst]
  · simp [step, hvalid]

/-- A presented request that the caller does not hold is refused. -/
theorem step_of_not_held {s : State} (hrst : s.inp.rst = false) (hvalid : s.inp.reqValid = true)
    (hheld : s.inp.held = false) : step s = .refused .requestNotHeld := by
  simp [step, hrst, hvalid, hheld]

/-- A step that answers a state gives no response, or serves the request on the ports. -/
theorem step_next_served {s t : State} (h : step s = .next t) :
    t = s.noResponse.advance ∨ t = (s.respond (servedResponse s.inp.req)).advance := by
  obtain ⟨-, hidle⟩ | ⟨hrst, hvalid, hheld, -⟩ := step_next h
  · exact .inl hidle
  · exact .inr (Host.Outcome.next.inj (h.symm.trans (step_of_serving ⟨hrst, hvalid, hheld⟩)))

theorem serving_present (q : Request) (s : State) : Safety.Serving (s.present q) := ⟨rfl, rfl, rfl⟩

/-- A presented request is answered `servedResponse`, whatever came before it (R158, R159). -/
theorem step_present (q : Request) (s : State) :
    step (s.present q) = .next ((s.present q).respond (servedResponse q)).advance :=
  step_of_serving (serving_present q s)

/-- The response a request gets is the one it gets right after reset. -/
theorem answersFresh_servedResponse (q : Request) : Safety.AnswersFresh q (servedResponse q) :=
  ⟨_, step_present q _, rfl⟩

theorem servedResponse_of_decodeOp {q : Request} {i : Instr} (h : decodeOp q.op = .ok i) :
    servedResponse q = responseTo i q := by
  rw [servedResponse, h]

-- What a step leaves on the ports and in the observation (R13, R158)

theorem inp_of_step {s t : State} (h : step s = .next t) : t.inp = s.inp.quiet := by
  obtain rfl | rfl := step_next_served h <;> rfl

/-- The response on the ports after a step is that of the request it served. -/
theorem rsp_of_step {s t : State} {r : Response} (h : step s = .next t) (hr : t.rsp = some r) :
    r = servedResponse s.inp.req ∧ t.trace = s.trace ++ [(s.inp.req, r)] := by
  obtain rfl | rfl := step_next_served h
  · cases hr
  · cases hr
    exact ⟨rfl, rfl⟩

/-- What holds of every observed pair holds after a step, if it holds of the request on the ports and the response it gets. -/
theorem forall_trace_of_step {P : Request × Response → Prop} {s t : State} (h : step s = .next t)
    (htrace : ∀ p ∈ s.trace, P p) (hserved : P (s.inp.req, servedResponse s.inp.req)) : ∀ p ∈ t.trace, P p := by
  obtain rfl | rfl := step_next_served h
  · exact htrace
  · intro p hp
    obtain hold | hnew := List.mem_append.1 hp
    · exact htrace p hold
    · exact List.mem_singleton.1 hnew ▸ hserved

-- Runs (R30, R163)

/-- The response that a drive gets: that of its request if it is served, else none. -/
def Drive.answer (d : Drive) : Option Response := if d.serves then some (servedResponse d.req) else none

/-- The pair that a drive adds to the observation, if it is served. -/
def Drive.observed (d : Drive) : List (Request × Response) := if d.serves then [(d.req, servedResponse d.req)] else []

theorem Drive.serves_iff {d : Drive} : d.serves = true ↔ d.rst = false ∧ d.reqValid = true := by
  simp [Drive.serves, and_comm]

theorem Drive.serves_eq_false_iff {d : Drive} : d.serves = false ↔ d.rst = true ∨ d.reqValid = false := by
  rw [Drive.serves, Bool.and_eq_false_iff, Bool.not_eq_false', or_comm]

/-- A step on a drive that holds its request, if it serves one, leaves the drive's answer on the ports and its pair in the
observation. -/
theorem stepOn_of_held {d : Drive} (hheld : d.serves = true → d.held = true) (s : State) :
    ∃ t, stepOn d s = .next t ∧ t.rsp = d.answer ∧ t.trace = s.trace ++ d.observed := by
  cases hd : d.serves with
  | true =>
    obtain ⟨hrst, hvalid⟩ := Drive.serves_iff.1 hd
    refine ⟨_, step_of_serving (s := s.drive d) ⟨hrst, hvalid, hheld hd⟩, ?_, ?_⟩
    · simp [Drive.answer, hd]
    · simp [Drive.observed, hd]
  | false =>
    refine ⟨_, step_of_idle (s := s.drive d) (Drive.serves_eq_false_iff.1 hd), ?_, ?_⟩
    · simp [Drive.answer, hd]
    · simp [Drive.observed, hd]

/-- A run adds the pairs of its drives in their order, and ends with the answer of the last one. -/
theorem runOn_of_held {ds : List Drive} (hheld : ∀ d ∈ ds, d.serves = true → d.held = true) (s : State) :
    ∃ t, runOn ds s = .next t ∧ t.rsp = ds.getLast?.elim s.rsp Drive.answer ∧
      t.trace = s.trace ++ ds.flatMap Drive.observed := by
  induction ds generalizing s with
  | nil => exact ⟨s, rfl, rfl, by simp⟩
  | cons d ds ih =>
    obtain ⟨hd, hds⟩ := List.forall_mem_cons.1 hheld
    obtain ⟨u, hstep, hrsp, htrace⟩ := stepOn_of_held hd s
    obtain ⟨t, hrun, hlast, hall⟩ := ih hds u
    refine ⟨t, (runOn_cons hstep ds).trans hrun, ?_, ?_⟩
    · rw [hlast, hrsp, List.getLast?_cons]
      cases ds.getLast? <;> rfl
    · rw [hall, htrace, List.flatMap_cons, List.append_assoc]

/-- The pairs of a list of drives are its served requests, each with its response. -/
theorem flatMap_observed (ds : List Drive) :
    ds.flatMap Drive.observed = (requestsOf ds).zip ((requestsOf ds).map servedResponse) := by
  induction ds with
  | nil => rfl
  | cons d ds ih => cases hd : d.serves <;> simp [Drive.observed, requestsOf, hd] at ih ⊢ <;> exact ih

/-- The answer of the last drive is that of the last request, if the drive is served. -/
theorem answer_of_getLast? {ds : List Drive} {d : Drive} (h : ds.getLast? = some d) :
    d.answer = if d.serves then ((requestsOf ds).map servedResponse).getLast? else none := by
  obtain ⟨ds, rfl⟩ := List.getLast?_eq_some_iff.1 h
  cases hd : d.serves <;> simp [Drive.answer, requestsOf, hd]

end Sys2Proof.Machine

namespace Sys2Proof.Proofs

open Sys2Proof.Machine Sys2Proof.Safety

/-- Settles O58: the response that joins the observation is a function of its request, after reset as at any other time. -/
theorem stepKeepsTheObservationHistoryFree : Obligations.StepKeepsTheObservationHistoryFree :=
  fun _ _ hs h => forall_trace_of_step h hs (answersFresh_servedResponse _)

/-- Settles O56: a step leaves the operand ports as they are, and the request that joins the observation is the one on them. -/
theorem stepKeepsThePortsCanonical : Obligations.StepKeepsThePortsCanonical := by
  refine ⟨fun s t ⟨hreq, htrace⟩ h => ⟨?_, forall_trace_of_step h htrace hreq⟩,
    fun s d ⟨_, htrace⟩ hd => ⟨hd, htrace⟩⟩
  rw [inp_of_step h]
  exact hreq

/-- Settles O59: the response a step gives joins the observation at its end. -/
theorem stepKeepsTheResponseTheLastObserved : Obligations.StepKeepsTheResponseTheLastObserved := by
  intro s t _ h r hr
  obtain ⟨-, htrace⟩ := rsp_of_step h hr
  exact ⟨s.inp.req, by rw [htrace, List.getLast?_concat]⟩

/-- Settles O55: each served drive of the run adds its request with its response, and the others add nothing. -/
theorem aRunAnswersEveryRequestInTurn : Obligations.ARunAnswersEveryRequestInTurn := by
  intro ds s hheld
  obtain ⟨t, hrun, hlast, htrace⟩ := runOn_of_held hheld s
  refine ⟨t, (requestsOf ds).map servedResponse, hrun, List.length_map _, flatMap_observed ds ▸ htrace, fun p hp => ?_,
    fun d hd => ?_⟩
  · rw [← List.map_prod_left_eq_zip] at hp
    obtain ⟨q, -, rfl⟩ := List.mem_map.1 hp
    exact answersFresh_servedResponse q
  · rw [hlast, hd]
    exact answer_of_getLast? hd

/-- Settles O53: a step gives no response unless it serves a request, and then the request alone decides it. -/
theorem resetLeavesNothingToDependOn : Obligations.ResetLeavesNothingToDependOn := by
  refine ⟨rfl, fun s h => ⟨_, step_of_idle h, rfl⟩, fun s h => ?_,
    fun s q => ⟨_, _, step_present q _, step_present q s, rfl⟩⟩
  have hnone : s.rsp = none := Option.not_isSome_iff_eq_none.1 (by simpa [State.rspValid] using h)
  simp [State.status, State.results, hnone]

/-- Settles O48: the response of a served request is that of the operation its code decodes to. -/
theorem stepRunsTheDecodedOperation : Obligations.StepRunsTheDecodedOperation := by
  intro s i hs h
  rw [step_of_serving hs, servedResponse_of_decodeOp h, exec_eq]
  rfl

/-- Settles O52: an idle step, the reset that withdraws a response, and the refusal. -/
theorem stepsWithoutARequestGiveNoResponse : Obligations.StepsWithoutARequestGiveNoResponse := by
  refine ⟨fun s => ⟨fun h => ⟨_, step_of_idle h, rfl, rfl, rfl, rfl⟩, step_of_not_held⟩, fun s d hd => ?_,
    fun s t h _ => ?_⟩
  · simp [State.rspValid, hd]
  · rw [inp_of_step h]
    rfl

/-- Settles O60: at reset the byte spaces are empty, there is no response, and nothing is observed. -/
theorem resetMeetsTheInvariants : Obligations.ResetMeetsTheInvariants :=
  ⟨⟨Request.zero_wf, nofun⟩, ⟨nofun, nofun⟩, nofun, nofun⟩

end Sys2Proof.Proofs
end

section
/-!
What an instruction reads and what it answers: it changes the response alone (R13), requests that agree on what it reads get one response
(R25), every response is in shape (R20 to R23, R143), and a received packet is answered its fields (log entry 9).
-/

namespace Sys2Proof.Machine

-- The operands that two requests share (R17 to R19)

theorem Request.flags_congr {q q' : Request} (h : Safety.sameHeaderOperands q q') : q.flags = q'.flags :=
  BitVec.eq_of_toNat_eq (by rw [flags_toNat, flags_toNat, h.1])

theorem Request.time_congr {q q' : Request} (h : Safety.sameHeaderOperands q q') : q.time = q'.time :=
  BitVec.eq_of_toNat_eq (by rw [time_toNat, time_toNat, h.2])

/-- Requests that agree on the first `n` slots read as words have the same `n` words there. -/
theorem Request.slots_congr {n : Nat} (hn : n ≤ 9) {q q' : Request} (h : Safety.sameSlots n 32 q q') :
    q.slots n hn = q'.slots n hn := by
  refine congrArg List.ofFn (funext fun i => BitVec.eq_of_toNat_eq ?_)
  have hslot := h ⟨i, i.isLt.trans_le hn⟩ i.isLt
  rwa [Nat.mod_eq_of_lt (BitVec.isLt _), Nat.mod_eq_of_lt (BitVec.isLt _)] at hslot

/-- Requests that agree on the first `n` slots read as halves have the same `n` low halves there. -/
theorem Request.lowHalves_congr {n : Nat} (hn : n ≤ 9) {q q' : Request} (h : Safety.sameSlots n 16 q q') :
    (q.slots n hn).map lowHalf = (q'.slots n hn).map lowHalf := by
  refine List.ext_getElem (by simp) fun i hi _ => BitVec.eq_of_toNat_eq ?_
  have hi : i < n := by simpa using hi
  simpa [lowHalf_toNat] using h ⟨i, hi.trans_le hn⟩ hi

theorem Request.infoPayload_congr {q q' : Request} (hlen : q.msgLen = q'.msgLen)
    (h : ∀ a, a < q.msgLen.toNat → a < 299 → q.msg.read a = q'.msg.read a) : q.infoPayload = q'.infoPayload := by
  have htaken : q.msgTaken = q'.msgTaken := by rw [msgTaken, msgTaken, hlen]
  refine infoPayload_eq q'.infoPayload_length (fun j hj => ?_) fun j hj hj' => infoPayload_padding (htaken ▸ hj) hj'
  obtain ⟨hmsg, hcap⟩ := lt_min_iff.1 hj
  rw [infoPayload_message (htaken ▸ hj), h j hmsg hcap]

-- Requests that agree on what an operation reads get one response (R25)

/-- A pack operation reads the header operands, and the operands its payload's bytes are made of. -/
theorem packResponse_congr {w : Bool} {p p' : Payload} {q q' : Request} (hheader : Safety.sameHeaderOperands q q')
    (htype : p.type = p'.type) (hbytes : p.bytes = p'.bytes) : packResponse w p q = packResponse w p' q' := by
  simp only [packResponse, Packet.bytes, Request.packet, htype, hbytes, Request.flags_congr hheader, Request.time_congr hheader]

theorem encodeHeaderResponse_congr {q q' : Request} (htype : q.typeIn = q'.typeIn)
    (hheader : Safety.sameHeaderOperands q q') : encodeHeaderResponse q = encodeHeaderResponse q' := by
  rw [encodeHeaderResponse, encodeHeaderResponse, htype, Request.flags_congr hheader, Request.time_congr hheader]

/-- `decode_header` reads bytes 0 to 2 of a buffer that has them. -/
theorem decodeHeaderResponse_congr {q q' : Request} (h : Safety.sameBuffer q q') :
    decodeHeaderResponse q = decodeHeaderResponse q' := by
  obtain ⟨hlen, hbytes⟩ := h
  by_cases hl : q.ibufLen.toNat < 3
  · rw [decodeHeaderResponse_of_lt hl, decodeHeaderResponse_of_lt (hlen ▸ hl)]
  · rw [decodeHeaderResponse_of_le (not_lt.1 hl), decodeHeaderResponse_of_le (hlen ▸ not_lt.1 hl), hbytes 0 (by omega),
      hbytes 1 (by omega), hbytes 2 (by omega)]

/-- `type_of` reads byte 0 of a buffer that has one. -/
theorem typeOfResponse_congr {q q' : Request} (h : Safety.sameBuffer q q') : typeOfResponse q = typeOfResponse q' := by
  obtain ⟨hlen, hbytes⟩ := h
  by_cases hl : q.ibufLen.toNat = 0
  · rw [typeOfResponse_of_zero hl, typeOfResponse_of_zero (hlen ▸ hl)]
  · have hpos : 1 ≤ q.ibufLen.toNat := Nat.pos_of_ne_zero hl
    rw [typeOfResponse_of_le hpos, typeOfResponse_of_le (hlen ▸ hpos), hbytes 0 hpos]

/-- An unpack operation reads a buffer of its type's length. -/
theorem unpackResponse_congr_buffer {t : FrameType} {q q' : Request} (h : Safety.sameBuffer q q') :
    unpackResponse t q = unpackResponse t q' := by
  obtain ⟨hlen, hbytes⟩ := h
  unfold unpackResponse
  rw [← hlen]
  by_cases hl : q.ibufLen.toNat = t.len
  · rw [hl] at hbytes
    rw [hbytes 0 (Nat.zero_lt_of_lt t.three_le_len), Packet.read_congr hbytes]
  · rw [if_pos hl, if_pos hl]

theorem decodeResponse_congr_buffer {q q' : Request} (h : Safety.sameBuffer q q') : decodeResponse q = decodeResponse q' := by
  obtain ⟨hlen, hbytes⟩ := h
  rw [decodeResponse, decodeResponse, ← hlen, decodePacket_congr hbytes]

/-- An instruction answers requests that agree on what it reads with one response. -/
theorem responseTo_congr {i : Instr} {q q' : Request} (h : Safety.SameOperands i q q') : responseTo i q = responseTo i q' := by
  cases i with
  | encodeHeader =>
    obtain ⟨htype, hheader⟩ := h
    exact encodeHeaderResponse_congr htype hheader
  | decodeHeader => exact decodeHeaderResponse_congr h
  | typeOf => exact typeOfResponse_congr h
  | packMotion | packEnvironmental | packSecondaryAccel | packAltitude =>
    obtain ⟨hheader, hslots⟩ := h
    exact packResponse_congr hheader rfl (congrArg (List.flatMap put32) (Request.slots_congr (by decide) hslots))
  | packAirQuality | packOrientation =>
    obtain ⟨hheader, hslots⟩ := h
    exact packResponse_congr hheader rfl (congrArg (List.flatMap put16) (Request.lowHalves_congr (by decide) hslots))
  | packCommand => exact packResponse_congr h rfl rfl
  | packInfo =>
    obtain ⟨hheader, hlen, hmsg⟩ := h
    have hcut : q.msgCut = q'.msgCut := by rw [Request.msgCut, Request.msgCut, hlen]
    rw [responseTo, responseTo, hcut]
    exact packResponse_congr hheader rfl (Request.infoPayload_congr hlen hmsg)
  | unpackMotion | unpackEnvironmental | unpackAirQuality | unpackSecondaryAccel | unpackAltitude | unpackOrientation
  | unpackCommand | unpackInfo => exact unpackResponse_congr_buffer h
  | decode => exact decodeResponse_congr_buffer h
  | frameNull | frameMotion | frameEnvironmental | frameAirQuality | frameSecondaryAccel | frameAltitude | frameOrientation
  | frameCommand | frameInfo => rfl

-- Received packets (R64, R120, log entry 9)

theorem frameInfoResponse_of_length {flags : Nibble} {time : Half} {buf : List Byte} (h : buf.length = 300) :
    frameInfoResponse flags time buf = packetResponse ⟨flags, time, .info buf⟩ := by
  simp [frameInfoResponse, h]

/-- A well-formed packet is answered its header and fields, whatever request stands on the ports. -/
theorem responseTo_toInstr {p : Packet} (hp : p.payload.wf = true) (q : Request) :
    responseTo p.toInstr q = packetResponse p := by
  obtain ⟨flags, time, payload⟩ := p
  cases payload with
  | info buf => exact frameInfoResponse_of_length (by simpa [Payload.wf] using hp)
  | _ => rfl

/-- `decode` of a buffer that holds exactly the bytes of a well-formed packet answers the packet. -/
theorem decodeResponse_of_bytes {q : Request} {p : Packet} (hp : p.payload.wf = true)
    (hlen : q.ibufLen.toNat = p.bytes.length) (hbytes : ∀ a, a < p.bytes.length → p.bytes[a]? = some (q.ibuf.read a)) :
    decodeResponse q = packetResponse p := by
  have hread (a : Nat) (ha : a < p.bytes.length) : q.ibuf.read a = p.bytes[a] := by
    rw [← Option.some.injEq, ← hbytes a ha, List.getElem?_eq_getElem ha]
  rw [decodeResponse, hlen, decodePacket_of_bytes hp hread]

-- The shape of the responses (R20 to R23, R143)

/-- Encode-side results of at most 303 bytes are in shape. -/
theorem resultsFit_ofBytes {bytes : List Byte} (h : bytes.length ≤ 303) : Safety.ResultsFit (Results.ofBytes bytes) := by
  simp [Safety.ResultsFit, Results.ofBytes, h]

/-- No payload has more fields than there are slots. -/
theorem Payload.slots_length_le (p : Payload) : (Payload.slots p).length ≤ 9 := by
  cases p <;> simp [Payload.slots]

/-- The results of a well-formed packet are in shape. -/
theorem resultsFit_ofPacket {p : Packet} (hp : p.payload.wf = true) : Safety.ResultsFit (Results.ofPacket p) := by
  have hslots : (Results.ofPacket p).x.length ≤ 9 := Payload.slots_length_le p.payload
  obtain ⟨flags, time, payload⟩ := p
  cases payload with
  | info buf =>
    have hlen : buf.length = 300 := Payload.infoBuf?_length hp rfl
    have hinfo : firstTerminator buf ≤ 300 := hlen ▸ firstTerminator_le buf
    refine ⟨rfl, ⟨hlen, rfl, firstTerminator buf, hinfo, rfl, fun j hj => firstTerminator_before hj, fun hn => ?_⟩,
      hslots, fun hx => absurd rfl hx, fun _ => rfl, rfl⟩
    exact firstTerminator_at (hlen ▸ hn)
  | _ => exact ⟨rfl, rfl, hslots, fun _ => ⟨rfl, rfl⟩, fun _ => rfl, rfl⟩

theorem responseFits_packetResponse {p : Packet} (hp : p.payload.wf = true) : Safety.ResponseFits (packetResponse p) :=
  ⟨resultsFit_ofPacket hp, nofun⟩

/-- A pack operation's response is in shape, if only INFO carries the warning. -/
theorem responseFits_packResponse {w : Bool} {p : Payload} (hp : p.wf = true) (hw : w = true → p.type = .info)
    (q : Request) : Safety.ResponseFits (packResponse w p q) := by
  have hlen : (q.packet p).bytes.length = p.type.len := Packet.bytes_length hp
  refine ⟨resultsFit_ofBytes (hlen ▸ p.type.len_le), fun h => ?_⟩
  rw [Results.ofBytes, hlen, hw h]
  rfl

theorem responseFits_unpackResponse (t : FrameType) (q : Request) : Safety.ResponseFits (unpackResponse t q) := by
  unfold unpackResponse
  split_ifs
  · trivial
  · trivial
  · exact responseFits_packetResponse (Payload.read_wf t _)

theorem responseFits_decodeResponse (q : Request) : Safety.ResponseFits (decodeResponse q) := by
  cases hd : decodePacket q.ibufLen.toNat q.ibuf.read with
  | error e =>
    rw [decodeResponse, hd]
    trivial
  | ok p =>
    obtain ⟨t, -, -, rfl⟩ := decodePacket_ok.1 hd
    rw [decodeResponse, hd]
    exact responseFits_packetResponse (Payload.read_wf t _)

/-- Every response of an instruction is in shape. -/
theorem responseFits_responseTo (i : Instr) (q : Request) : Safety.ResponseFits (responseTo i q) := by
  cases i with
  | encodeHeader =>
    rw [responseTo, encodeHeaderResponse]
    split_ifs
    · trivial
    · exact ⟨resultsFit_ofBytes (by simp), nofun⟩
  | decodeHeader =>
    rw [responseTo, decodeHeaderResponse]
    split_ifs
    · trivial
    · exact ⟨by simp [Safety.ResultsFit], nofun⟩
  | typeOf =>
    rw [responseTo, typeOfResponse]
    split_ifs
    · trivial
    · exact ⟨by simp [Safety.ResultsFit], nofun⟩
  | packMotion | packEnvironmental | packAirQuality | packSecondaryAccel | packAltitude | packOrientation | packCommand =>
    refine responseFits_packResponse ?_ ?_ q
    · rfl
    · nofun
  | packInfo => exact responseFits_packResponse q.infoPayload_wf (fun _ => rfl) q
  | unpackMotion | unpackEnvironmental | unpackAirQuality | unpackSecondaryAccel | unpackAltitude | unpackOrientation
  | unpackCommand | unpackInfo => exact responseFits_unpackResponse _ q
  | decode => exact responseFits_decodeResponse q
  | frameInfo flags time buf =>
    rw [responseTo, frameInfoResponse]
    split_ifs with hlt hgt
    · trivial
    · trivial
    · exact responseFits_packetResponse (p := ⟨flags, time, .info buf⟩)
        (beq_iff_eq.2 (le_antisymm (not_lt.1 hgt) (not_lt.1 hlt)))
  | frameNull | frameMotion | frameEnvironmental | frameAirQuality | frameSecondaryAccel | frameAltitude | frameOrientation
  | frameCommand => exact responseFits_packetResponse rfl

theorem responseFits_servedResponse (q : Request) : Safety.ResponseFits (servedResponse q) := by
  cases hd : decodeOp q.op with
  | error e =>
    rw [servedResponse, hd]
    trivial
  | ok i => exact servedResponse_of_decodeOp hd ▸ responseFits_responseTo i q

end Sys2Proof.Machine

namespace Sys2Proof.Proofs

open Sys2Proof.Machine Sys2Proof.Safety

/-- Settles O57: the response a step gives is in shape, and it is the one that joins the observation. -/
theorem stepKeepsTheResponsesInShape : Obligations.StepKeepsTheResponsesInShape := by
  intro s t ⟨_, htrace⟩ h
  have hserved := responseFits_servedResponse s.inp.req
  refine ⟨fun r hr => ?_, forall_trace_of_step h htrace hserved⟩
  obtain ⟨rfl, -⟩ := rsp_of_step h hr
  exact hserved

/-- Settles O45: an instruction answers its response and changes nothing else. -/
theorem instructionsChangeTheResponseOnly : Obligations.InstructionsChangeTheResponseOnly :=
  fun i s => ⟨_, _, exec_eq i s, State.respond_rsp _ s, State.respond_trace _ s, State.respond_inp _ s, fun _ => rfl,
    fun _ => rfl⟩

/-- Settles O46: each response is a function of the operands the instruction reads. -/
theorem unreadPortsAreIgnored : Obligations.UnreadPortsAreIgnored := by
  intro i s u t v hsame hs hu
  obtain rfl := exec_next hs
  obtain rfl := exec_next hu
  rw [State.respond_rsp, State.respond_rsp, responseTo_congr hsame]

/-- Settles O49: `decode` reads the packet from the buffer, and both answer it. -/
theorem stepRunsTheReceivedPacket : Obligations.StepRunsTheReceivedPacket := by
  intro s i bytes hs hop hwf hencode hlen hbytes
  obtain ⟨c, hc⟩ | ⟨p, rfl⟩ := i.operation_or_packet
  · obtain ⟨-, -, hcode⟩ := encode_of_mem_operations hc
    cases hcode.symm.trans hencode
  · rw [Packet.encode_toInstr, Encoding.packet.injEq] at hencode
    subst hencode
    have hp : p.payload.wf = true := p.toInstr_wf ▸ hwf
    have hdecode : responseTo .decode s.inp.req = responseTo p.toInstr s.inp.req :=
      (decodeResponse_of_bytes hp hlen hbytes).trans (responseTo_toInstr hp _).symm
    have hserved : servedResponse s.inp.req = responseTo p.toInstr s.inp.req :=
      (servedResponse_of_decodeOp (i := .decode) (by rw [hop]; rfl)).trans hdecode
    refine ⟨by rw [exec_eq, exec_eq, hdecode], _, _, step_of_serving hs, exec_eq _ s, ?_⟩
    rw [hserved]
    exact ⟨rfl, rfl⟩

/-- Settles O33: each packet is answered its header and its fields; an INFO packet of 300 bytes its buffer and first terminator. -/
theorem framesDeliverTheirFields : Obligations.FramesDeliverTheirFields := by
  intro s f t
  have hexec (p : Packet) (hp : p.payload.wf = true) : exec p.toInstr s = answered s (packetResponse p) := by
    rw [exec_eq_answered, responseTo_toInstr hp]
  refine ⟨hexec ⟨f, t, .null⟩ rfl, fun p => hexec ⟨f, t, .motion p⟩ rfl, fun p => hexec ⟨f, t, .environmental p⟩ rfl,
    fun p => hexec ⟨f, t, .airQuality p⟩ rfl, fun p => hexec ⟨f, t, .secondaryAccel p⟩ rfl,
    fun p => hexec ⟨f, t, .altitude p⟩ rfl, fun p => hexec ⟨f, t, .orientation p⟩ rfl, hexec ⟨f, t, .command⟩ rfl,
    fun buf hlen => ⟨firstTerminator buf, hlen ▸ firstTerminator_le buf, fun j hj => firstTerminator_before hj,
      fun hn => ?_, ?_⟩⟩
  · exact firstTerminator_at (hlen ▸ hn)
  · exact hexec ⟨f, t, .info buf⟩ (beq_iff_eq.2 hlen)

end Sys2Proof.Proofs
end
